-- ==== Sys2Proof/Word.lean ====
section
/-! DEFINITION. The widths of the radix-converter engine: a byte (a character code, a digit carried in a cell),
a 32-bit word (a command word, a host-visible register) and a length (00_scope.md R10). -/

namespace Sys2Proof

/-- A byte buffer element, a character code or RES: 8 bits (00_scope.md R5 `BYTE_BITS`, R6 `CHAR_BITS`). -/
abbrev Byte := BitVec 8

/-- A command word, or a register on the host side: 32 bits (30_encoding.md R90, 10_state.md R30). -/
abbrev Word := BitVec 32

/-- ILEN, OLEN and ERRPOS: `LEN_BITS` = 32 bits (00_scope.md R6). -/
abbrev Len := BitVec 32

end Sys2Proof
end

