-- ==== Sys2Proof/Config.lean ====
section
/-! DEFINITION. What an implementation fixes (00_scope.md R5, R6): the constants of the hardware, the OPEN
parameters ALPHABET, CAP and RCE_BASE as read-only data, the invariants any instance meets (40_alphabet.md R121),
and the free values, opaque constants without a body for what the spec leaves open (93_implementation_defined.md
section 2). -/

namespace Sys2Proof

/-- `MIN_BASE` (00_scope.md R5). -/
def minBase : Nat := 2

/-- `MAX_BASE` (00_scope.md R5). -/
def maxBase : Nat := 94

/-- `ALPHA_LEN` (00_scope.md R5). -/
def alphaLen : Nat := 94

/-- `BYTE_RADIX`: the radix of a byte buffer read as a number, and the largest operand of MULADD and DIVMOD
(00_scope.md R5, 30_encoding.md R95). -/
def byteRadix : Nat := 256

/-- The largest value a `LEN_BITS`-bit length register holds (00_scope.md R6). -/
def maxLen : Nat := 2 ^ 32 - 1

/-- The OPEN parameters of 00_scope.md R6 that a rule reads. `N_ENGINES` is 1: this model is one engine (log 3). -/
structure Config where
  /-- `ALPHABET`: the character codes of the digit values, index = digit value (10_state.md R25). -/
  alpha : List Byte
  /-- `CAP`: the number of cells of IBUF and of OBUF, `none` for unbounded (00_scope.md R6). -/
  cap : Option Nat
  /-- `RCE_BASE`: the bus address of register 0 if the platform maps the engine (10_state.md R30). -/
  rceBase : Option Nat
  deriving DecidableEq, Repr

/-- A printable character: a code in 0x21..0x7E (40_alphabet.md R123). -/
abbrev Printable (c : Byte) : Prop := 0x21 ≤ c.toNat ∧ c.toNat ≤ 0x7E

/-- A letter of the printable codes, as R121 (d) asks of the symbol at index 10. -/
abbrev Letter (c : Byte) : Prop :=
  (0x41 ≤ c.toNat ∧ c.toNat ≤ 0x5A) ∨ (0x61 ≤ c.toNat ∧ c.toNat ≤ 0x7A)

/-- The invariants (a) to (d) every `ALPHABET` instance satisfies (40_alphabet.md R121). -/
abbrev Config.AlphabetOk (cfg : Config) : Prop :=
  cfg.alpha.length = alphaLen ∧ cfg.alpha.Nodup ∧ (∀ c ∈ cfg.alpha, Printable c) ∧
    (∀ c ∈ cfg.alpha[10]?, Letter c)

/-- `CAP` is none or a natural of at most 2^LEN_BITS − 1 (00_scope.md R6). -/
abbrev Config.CapOk (cfg : Config) : Prop := ∀ c ∈ cfg.cap, c ≤ maxLen

/-- `RCE_BASE` is none or a 4-byte aligned platform address (92_eei_decisions.md, the table of OPEN parameters). -/
abbrev Config.BaseOk (cfg : Config) : Prop := ∀ b ∈ cfg.rceBase, b % 4 = 0

/-- The constraints of 92_eei_decisions.md on any instance of the OPEN parameters. -/
abbrev Config.Ok (cfg : Config) : Prop := cfg.AlphabetOk ∧ cfg.CapOk ∧ cfg.BaseOk

/-- Whether a buffer has a cell at index `i` (20_memory.md R64: `0 ≤ i < CAP`). -/
def Config.hasCell (cfg : Config) (i : Nat) : Bool :=
  match cfg.cap with
  | none => true
  | some c => decide (i < c)

/-- The longest output a command can leave in OBUF: `CAP` cells, and at most 2^LEN_BITS − 1
(20_memory.md R68, 93_implementation_defined.md U4). -/
def Config.outputLimit (cfg : Config) : Nat :=
  match cfg.cap with
  | none => maxLen
  | some c => min c maxLen

/-- FREE VALUE (93_implementation_defined.md U1, log 5): what IBUF cell `index` reads as when the host has not
written it since the `epoch`-th reset, "an arbitrary 8-bit value fixed at reset". -/
opaque Config.unwrittenIbuf (epoch index : Nat) : Byte

/-- FREE VALUE (93_implementation_defined.md U2 and U10, log 6): what the `draw`-th free read gives for an OBUF
cell that holds no value. -/
opaque Config.staleObuf (draw index : Nat) : Byte

/-- FREE VALUE (93_implementation_defined.md U5, log 7): the five unspecified bits of STATUS read while BUSY = 1,
bit 0 standing for Z and bits 4:1 for ERR. -/
opaque Config.busyStatus (draw : Nat) : BitVec 5

end Sys2Proof
end

