-- ==== Sys2Proof/Syntax.lean ====
section
/-! DEFINITION. The twelve commands of RCE-1, one constructor for each row of spec/opcode_table.json, with the
operands at the widths of their fields (30_encoding.md R91 to R94). -/

namespace Sys2Proof

/-- A command with its operands as the fields of the command word carry them (30_encoding.md R93: unsigned, used
as they are). -/
inductive Instr where
  /-- `NOP` (44_control.md R215). -/
  | nop
  /-- `ENC base` (41_encoder.md R141). -/
  | enc (base : BitVec 16)
  /-- `DEC base` (42_decoder.md R156). -/
  | dec (base : BitVec 16)
  /-- `LDB` (43_bigint.md R174). -/
  | ldb
  /-- `STB min_length` (43_bigint.md R175). -/
  | stb (minLength : BitVec 16)
  /-- `LDD n` (43_bigint.md R176). -/
  | ldd (n : BitVec 16)
  /-- `STD n` (43_bigint.md R177). -/
  | std (n : BitVec 16)
  /-- `MULADD m, a` (43_bigint.md R172). -/
  | muladd (m : BitVec 9) (a : BitVec 8)
  /-- `DIVMOD d` (43_bigint.md R173). -/
  | divmod (d : BitVec 9)
  /-- `SYM digit` (40_alphabet.md R125). -/
  | sym (digit : BitVec 9)
  /-- `DIG c, base` (40_alphabet.md R126). -/
  | dig (c : BitVec 8) (base : BitVec 16)
  /-- `CLR` (43_bigint.md R171). -/
  | clr
  deriving DecidableEq, Repr

/-- The names of the twelve commands (30_encoding.md R94). -/
inductive Mnemonic where
  | nop | enc | dec | ldb | stb | ldd | std | muladd | divmod | sym | dig | clr
  deriving DecidableEq, Repr

/-- The name of a command. -/
def Instr.mnemonic : Instr → Mnemonic
  | .nop => .nop
  | .enc _ => .enc
  | .dec _ => .dec
  | .ldb => .ldb
  | .stb _ => .stb
  | .ldd _ => .ldd
  | .std _ => .std
  | .muladd _ _ => .muladd
  | .divmod _ => .divmod
  | .sym _ => .sym
  | .dig _ _ => .dig
  | .clr => .clr

end Sys2Proof
end

