-- ==== Sys2Proof/WellFormed.lean ====
section
/-! DEFINITION. Which commands are legal: the operand domains of 30_encoding.md R95. A base is not a domain check
(R95): every 16-bit base is well formed. -/

namespace Sys2Proof

/-- The domain of `m` of MULADD and `d` of DIVMOD: 2..256 (30_encoding.md R95). -/
def legalRadix (m : BitVec 9) : Bool := decide (2 ≤ m.toNat) && decide (m.toNat ≤ byteRadix)

/-- The domain of the digit of SYM: 0..93 (30_encoding.md R95). -/
def legalDigit (d : BitVec 9) : Bool := decide (d.toNat < alphaLen)

/-- The operands are in the domains of 30_encoding.md R95, so that the command has a legal word. -/
def Instr.wf : Instr → Bool
  | .nop => true
  | .enc _ => true
  | .dec _ => true
  | .ldb => true
  | .stb _ => true
  | .ldd _ => true
  | .std _ => true
  | .muladd m _ => legalRadix m
  | .divmod d => legalRadix d
  | .sym digit => legalDigit digit
  | .dig _ _ => true
  | .clr => true

end Sys2Proof
end

