-- ==== Sys2Proof/Decode.lean ====
section
/-! DEFINITION. The command word (30_encoding.md): its fields (R91), the total decoder (R98) that rejects an illegal
word by name (R97), the encoder (R100), the table of rows (R92, R94), the assembler's range checks and the
pseudo-commands (R100, R101). -/

namespace Sys2Proof

/-- Why a word is illegal, in the order (a), (b), (c) of 30_encoding.md R97. -/
inductive Illegal where
  /-- (a) OPC is 0xC, 0xD, 0xE or 0xF. -/
  | reservedOpcode
  /-- (b) a must-be-zero bit of the format is 1. -/
  | mustBeZero
  /-- (c) an operand is outside its domain (30_encoding.md R95). -/
  | operandDomain
  deriving DecidableEq, Repr

/-- The field OPC, bits 31:28 (30_encoding.md R91). -/
def fieldOPC (w : Word) : BitVec 4 := w.extractLsb' 28 4

/-- The field RSV, bits 27:25 (30_encoding.md R91). -/
def fieldRSV (w : Word) : BitVec 3 := w.extractLsb' 25 3

/-- The field A, bits 24:16 (30_encoding.md R91). -/
def fieldA (w : Word) : BitVec 9 := w.extractLsb' 16 9

/-- The field B, bits 15:0 (30_encoding.md R91). -/
def fieldB (w : Word) : BitVec 16 := w.extractLsb' 0 16

/-- The addend of MULADD, bits 7:0 (30_encoding.md R92 format AB). -/
def fieldAddend (w : Word) : BitVec 8 := w.extractLsb' 0 8

/-- The must-be-zero bits 15:8 of format AB (30_encoding.md R92). -/
def fieldBHigh (w : Word) : BitVec 8 := w.extractLsb' 8 8

/-- The character of DIG, bits 23:16 (30_encoding.md R92 format CB). -/
def fieldChar (w : Word) : BitVec 8 := w.extractLsb' 16 8

/-- The must-be-zero bit 24 of format CB (30_encoding.md R92). -/
def fieldATop (w : Word) : BitVec 1 := w.extractLsb' 24 1

/-- A command whose must-be-zero bits are zero, or the word is illegal by R97 (b). -/
def zeroBits (ok : Bool) (i : Instr) : Except Illegal Instr :=
  if ok then .ok i else .error .mustBeZero

/-- The same, and then the operand's domain: R97 (b), then (c). -/
def zeroBitsDomain (ok domain : Bool) (i : Instr) : Except Illegal Instr :=
  if ok then (if domain then .ok i else .error .operandDomain) else .error .mustBeZero

/-- The decoder of 30_encoding.md R98: total, one legal command or a named reason. -/
def decode (w : Word) : Except Illegal Instr :=
  if fieldRSV w != 0 then
    (if (fieldOPC w).toNat < 12 then .error .mustBeZero else .error .reservedOpcode)
  else
    match (fieldOPC w).toNat with
    | 0 => zeroBits (fieldA w == 0 && fieldB w == 0) .nop
    | 1 => zeroBits (fieldA w == 0) (.enc (fieldB w))
    | 2 => zeroBits (fieldA w == 0) (.dec (fieldB w))
    | 3 => zeroBits (fieldA w == 0 && fieldB w == 0) .ldb
    | 4 => zeroBits (fieldA w == 0) (.stb (fieldB w))
    | 5 => zeroBits (fieldA w == 0) (.ldd (fieldB w))
    | 6 => zeroBits (fieldA w == 0) (.std (fieldB w))
    | 7 => zeroBitsDomain (fieldBHigh w == 0) (legalRadix (fieldA w)) (.muladd (fieldA w) (fieldAddend w))
    | 8 => zeroBitsDomain (fieldB w == 0) (legalRadix (fieldA w)) (.divmod (fieldA w))
    | 9 => zeroBitsDomain (fieldB w == 0) (legalDigit (fieldA w)) (.sym (fieldA w))
    | 10 => zeroBits (fieldATop w == 0) (.dig (fieldChar w) (fieldB w))
    | 11 => zeroBits (fieldA w == 0 && fieldB w == 0) .clr
    | _ => .error .reservedOpcode

/-- A command word from its four fields, OPC and RSV above A above B (30_encoding.md R91). -/
def wordOf (opc : BitVec 4) (a : BitVec 9) (b : BitVec 16) : Word :=
  opc ++ (0#3 : BitVec 3) ++ a ++ b

/-- The word of a command (30_encoding.md R94, R100). A well-formed command has exactly this word (R98). -/
def encode : Instr → Word
  | .nop => wordOf 0x0 0 0
  | .enc base => wordOf 0x1 0 base
  | .dec base => wordOf 0x2 0 base
  | .ldb => wordOf 0x3 0 0
  | .stb minLength => wordOf 0x4 0 minLength
  | .ldd n => wordOf 0x5 0 n
  | .std n => wordOf 0x6 0 n
  | .muladd m a => wordOf 0x7 m (a.setWidth 16)
  | .divmod d => wordOf 0x8 d 0
  | .sym digit => wordOf 0x9 digit 0
  | .dig c base => wordOf 0xA (c.setWidth 9) base
  | .clr => wordOf 0xB 0 0

/-- One row of the opcode map: a word selects it when `word &&& mask = bits` (30_encoding.md R92, R94). -/
structure Row where
  name : Mnemonic
  bits : Word
  mask : Word
  deriving DecidableEq, Repr

/-- The row of a command (30_encoding.md R92 for the mask, R94 for the bits). -/
def rowOf : Mnemonic → Row
  | .nop => ⟨.nop, 0x00000000#32, 0xFFFFFFFF#32⟩
  | .enc => ⟨.enc, 0x10000000#32, 0xFFFF0000#32⟩
  | .dec => ⟨.dec, 0x20000000#32, 0xFFFF0000#32⟩
  | .ldb => ⟨.ldb, 0x30000000#32, 0xFFFFFFFF#32⟩
  | .stb => ⟨.stb, 0x40000000#32, 0xFFFF0000#32⟩
  | .ldd => ⟨.ldd, 0x50000000#32, 0xFFFF0000#32⟩
  | .std => ⟨.std, 0x60000000#32, 0xFFFF0000#32⟩
  | .muladd => ⟨.muladd, 0x70000000#32, 0xFE00FF00#32⟩
  | .divmod => ⟨.divmod, 0x80000000#32, 0xFE00FFFF#32⟩
  | .sym => ⟨.sym, 0x90000000#32, 0xFE00FFFF#32⟩
  | .dig => ⟨.dig, 0xA0000000#32, 0xFF000000#32⟩
  | .clr => ⟨.clr, 0xB0000000#32, 0xFFFFFFFF#32⟩

/-- The instruction the decoder reads from `nbits` bits of value `w`, numbered as spec/opcode_table.json numbers
them; every bit above `nbits` is 0. A command is one 32-bit word (30_encoding.md R90). -/
def decodeTableWord (nbits w : Nat) : Option Instr :=
  match decode (BitVec.ofNat 32 (w % 2 ^ nbits)) with
  | .ok i => some i
  | .error _ => none

/-- `v` as a field of `width` bits, or none when it does not fit: the assembler's range check (30_encoding.md R100
"An assembler rejects operands outside those ranges"). -/
def operand (width v : Nat) : Option (BitVec width) :=
  if v < 2 ^ width then some (BitVec.ofNat width v) else none

/-- A name the assembler accepts: a command or a pseudo-command (30_encoding.md R100, R101). -/
inductive AsmName where
  | command (m : Mnemonic)
  | enc94 | dec94 | shlb | shrb
  deriving DecidableEq, Repr

/-- A command kept only when its operands are in the domains of 30_encoding.md R95. -/
def keepLegal (i : Instr) : Option Instr := if i.wf then some i else none

/-- The command that a name and its operands, in the order of 30_encoding.md R94, stand for (R100, R101); none when
the number of operands is wrong or one is out of range. -/
def assemble : AsmName → List Nat → Option Instr
  | .command .nop, [] => some .nop
  | .command .enc, [base] => (operand 16 base).map .enc
  | .command .dec, [base] => (operand 16 base).map .dec
  | .command .ldb, [] => some .ldb
  | .command .stb, [minLength] => (operand 16 minLength).map .stb
  | .command .ldd, [n] => (operand 16 n).map .ldd
  | .command .std, [n] => (operand 16 n).map .std
  | .command .muladd, [m, a] =>
      (operand 9 m).bind fun m => (operand 8 a).bind fun a => keepLegal (.muladd m a)
  | .command .divmod, [d] => (operand 9 d).bind fun d => keepLegal (.divmod d)
  | .command .sym, [digit] => (operand 9 digit).bind fun digit => keepLegal (.sym digit)
  | .command .dig, [c, base] =>
      (operand 8 c).bind fun c => (operand 16 base).map fun base => .dig c base
  | .command .clr, [] => some .clr
  | .enc94, [] => some (.enc 94)
  | .dec94, [] => some (.dec 94)
  | .shlb, [a] => (operand 8 a).map fun a => .muladd 256 a
  | .shrb, [] => some (.divmod 256)
  | _, _ => none

end Sys2Proof
end

