-- ==== Sys2Proof/Machine/Reference.lean ====
section
/-! DEFINITION. The reference configuration: the reference alphabet of 40_alphabet.md R122 and the reference values
of 00_scope.md R6. State.reset carries it; every statement is about any configuration. -/

namespace Sys2Proof.Machine

/-- `n` consecutive codes from `first` upward. -/
def codesFrom (first n : Nat) : List Byte := (List.range n).map fun k => BitVec.ofNat 8 (first + k)

/-- `ALPHABET_REF` in the closed form of 40_alphabet.md R122: the decimal digits, the lower-case letters, the
upper-case letters, then the other printable codes in ascending order. -/
def alphabetRef : List Byte :=
  codesFrom 0x30 10 ++ codesFrom 0x61 26 ++ codesFrom 0x41 26 ++ codesFrom 0x21 15 ++ codesFrom 0x3A 7 ++
    codesFrom 0x5B 6 ++ codesFrom 0x7B 4

/-- DESIGN CHOICE (log 1, log 2): the reference instance of the OPEN parameters (00_scope.md R6): ALPHABET_REF,
unbounded buffers, not memory-mapped. -/
def referenceConfig : Config := ⟨alphabetRef, none, none⟩

end Sys2Proof.Machine
end

