-- ==== Sys2Proof/Machine/State.lean ====
section
/-! DEFINITION. The complete state of one engine instance (10_state.md R20) as plain data, the host's side of it (the
turns the host has yet to take and the values it has read), the reasons a step can stop, and the state after reset
(10_state.md R42). -/

namespace Sys2Proof.Machine

/-- A buffer: the cells that hold a value, by index, indices strictly rising. A cell that is not listed holds no
value (10_state.md R38, R39). -/
abbrev Memory := List Host.Cell

/-- The completion codes, the values of STATUS.ERR (10_state.md R29, 60_exceptions.md R230). -/
inductive CompletionCode where
  /-- 0: success. -/
  | ok
  /-- 1: a base outside 2..94 (60_exceptions.md R231). -/
  | invalidBase
  /-- 2: a character that is no digit of the base (60_exceptions.md R232). -/
  | invalidCharacter
  /-- 3: a digit of LDD not below the base (60_exceptions.md R233). -/
  | invalidDigit
  /-- 4: an illegal command word (60_exceptions.md R234). -/
  | illegalCommand
  deriving DecidableEq, Repr

/-- The four bits of STATUS.ERR (10_state.md R29). -/
def CompletionCode.bits : CompletionCode → BitVec 4
  | .ok => 0
  | .invalidBase => 1
  | .invalidCharacter => 2
  | .invalidDigit => 3
  | .illegalCommand => 4

/-- One host access (44_control.md R217, R218, R219). -/
inductive HostAccess where
  /-- Read register `n` (R217). -/
  | readReg (n : Nat)
  /-- Write register `n` (R218). -/
  | writeReg (n : Nat) (v : Word)
  /-- Read `bytes` bytes at a bus address (10_state.md R30, 20_memory.md R65). -/
  | readAddr (addr bytes : Nat)
  /-- Write `bytes` bytes at a bus address (10_state.md R30, 20_memory.md R65). -/
  | writeAddr (addr bytes : Nat) (v : Word)
  /-- `MemRead(IBUF, i, 1)` (R219). -/
  | readIbuf (i : Nat)
  /-- `MemWrite(IBUF, i, 1, v)` (R219). -/
  | writeIbuf (i : Nat) (v : Byte)
  /-- `MemRead(OBUF, i, 1)` (R219). -/
  | readObuf (i : Nat)
  /-- A host write to OBUF, ignored (10_state.md R39). -/
  | writeObuf (i : Nat) (v : Byte)
  deriving DecidableEq, Repr

/-- What one turn of the host's side does: an access, a host action of 30_encoding.md R102 that is several accesses,
or the reset input (70_reset_and_hazards.md R270). -/
inductive HostAction where
  | access (a : HostAccess)
  /-- `OUT`: read OLEN, then OBUF[0] .. OBUF[OLEN−1] (30_encoding.md R102). -/
  | out
  /-- `MOVE`: `OUT`, then write the elements read to IBUF and their count to ILEN (30_encoding.md R102). -/
  | move
  /-- The reset input (70_reset_and_hazards.md R270, R271). -/
  | reset
  deriving DecidableEq, Repr

/-- A turn of the host. `waits` is the host's `WAIT` (30_encoding.md R102) before it: the turn is taken only when
BUSY = 0; without it the turn comes at once, before the engine's step if a command is in progress (log 11). -/
structure HostTurn where
  waits : Bool
  action : HostAction
  deriving DecidableEq, Repr

/-- A value the host read (44_control.md R220 "the values the host read along the way"). -/
inductive HostRead where
  | reg (n : Nat) (v : Word)
  | ibuf (i : Nat) (v : Byte)
  | obuf (i : Nat) (v : Byte)
  deriving DecidableEq, Repr

/-- The state of one engine (10_state.md R20), its configuration, and the host's side. -/
structure State where
  /-- The OPEN parameters, read-only: `ALPHA` (10_state.md R25), `CAP`, `RCE_BASE` (00_scope.md R6). -/
  cfg : Config
  /-- `ACC`, a natural number without a maximum (10_state.md R21). -/
  acc : Nat
  /-- `RES`, register 4 (10_state.md R23). -/
  res : Byte
  /-- The cells of `IBUF` that the host has written since reset (10_state.md R38). -/
  ibuf : Memory
  /-- `ILEN`, register 2 (10_state.md R32). -/
  ilen : Len
  /-- The cells of `OBUF` that hold a value: those below OLEN (10_state.md R39). -/
  obuf : Memory
  /-- `OLEN`, register 3 (10_state.md R33). -/
  olen : Len
  /-- `STATUS.DONE` (10_state.md R28). -/
  done : Bool
  /-- `STATUS.ERR` (10_state.md R29). -/
  err : CompletionCode
  /-- `ERRCHAR`, register 5 (10_state.md R34). -/
  errchar : Byte
  /-- `ERRPOS`, register 6 (10_state.md R35). -/
  errpos : Len
  /-- `CMDR`: the accepted word not yet completed, or none (10_state.md R27). -/
  cmdr : Option Word
  /-- The MODEL's own field (log 11): the turns the host has yet to take, in the order it issues them. -/
  host : List HostTurn
  /-- The MODEL's own field (log 11): what the host has read so far, oldest first. -/
  reads : List HostRead
  /-- The MODEL's own field (log 5): how many resets were applied, for the free value of an unwritten IBUF cell. -/
  epoch : Nat
  /-- The MODEL's own field (log 6): how many free values were drawn. -/
  draws : Nat
  deriving DecidableEq, Repr

/-- Why a step stops at an access to something the spec says does not exist. No command raises one. -/
inductive Fault where
  /-- A host access to a buffer cell at an index of `CAP` or more, "no such cell exists"
  (93_implementation_defined.md U3). Safe: the spec gives the access no result. -/
  | noSuchCell
  /-- A host access to a register number of 7 or more, or by an address or a width that is no register
  (93_implementation_defined.md U8). Safe: the spec gives the access no result. -/
  | noSuchRegister
  deriving DecidableEq, Repr

/-- Why a step is refused: the spec gives the action no meaning (00_scope.md R13 "Refused"). -/
inductive Refusal where
  /-- Raised by `exec` for a command that has no meaning yet. Safe. No arm of this model raises it. -/
  | notModelled (mnemonic : String)
  /-- Raised by ENC, DEC, STB and STD when the output is longer than `CAP` or than 2^LEN_BITS − 1 elements
  (20_memory.md R68, 93_implementation_defined.md U4). Safe: the spec gives no result. -/
  | outputTooLong
  /-- Raised by a host access other than a read of STATUS while BUSY = 1 (70_reset_and_hazards.md R276,
  93_implementation_defined.md U6). Safe: the spec gives no result. -/
  | busyAccess
  /-- Raised by a host write to ILEN of a value above `CAP` (10_state.md R32, 93_implementation_defined.md U3).
  Safe: the spec gives no result. -/
  | lengthAboveCap
  deriving DecidableEq, Repr

/-- The state after reset of an engine built with the configuration `cfg` (10_state.md R42, 70_reset_and_hazards.md
R270): idle, no buffer cell holds a value, and the host has no turn to take. -/
def State.resetWith (cfg : Config) : State where
  cfg := cfg
  acc := 0
  res := 0
  ibuf := []
  ilen := 0
  obuf := []
  olen := 0
  done := false
  err := .ok
  errchar := 0
  errpos := 0
  cmdr := none
  host := []
  reads := []
  epoch := 0
  draws := 0

/-- The machine right after reset (10_state.md R42), with the reference configuration (log 1, log 2). -/
def State.reset : State := State.resetWith referenceConfig

end Sys2Proof.Machine
end

