-- ==== Sys2Proof/Machine/Ops.lean ====
section
/-! DEFINITION. The shared operations: the cells of a buffer (20_memory.md R64), positional values and digits
(43_bigint.md R182 to R185), writing a whole output (20_memory.md R68), completing a command (44_control.md R212) and
raising an error (60_exceptions.md R236 to R238). -/

namespace Sys2Proof.Machine

/-- Indices strictly rising: the one canonical form of a buffer. -/
def Memory.wf : Memory → Bool
  | [] => true
  | [_] => true
  | a :: b :: rest => decide (a.1 < b.1) && Memory.wf (b :: rest)

/-- The value a cell holds, or none. -/
def Memory.read (m : Memory) (i : Nat) : Option Byte :=
  match m with
  | [] => none
  | (j, v) :: rest => if i = j then some v else Memory.read rest i

/-- Store one cell: `MemWrite(S, i, 1, v)` (20_memory.md R64), keeping the canonical form. -/
def Memory.write (m : Memory) (i : Nat) (v : Byte) : Memory :=
  match m with
  | [] => [(i, v)]
  | (j, u) :: rest =>
    if i < j then (i, v) :: (j, u) :: rest
    else if i = j then (i, v) :: rest
    else (j, u) :: Memory.write rest i v

/-- The cells `start, start+1, …` holding the elements of a sequence. -/
def cellsFrom (start : Nat) : List Byte → Memory
  | [] => []
  | v :: rest => (start, v) :: cellsFrom (start + 1) rest

/-- `val_r(s)`, computed most significant element first by multiply-add (00_scope.md R8, 43_bigint.md R182, R184). -/
def valueIn (r : Nat) (s : List Nat) : Nat := s.foldl (fun v d => v * r + d) 0

/-- The divmod loop "until the value reaches zero" (43_bigint.md R185): the remainders, least significant first. The
first argument bounds the passes; the value itself is bound enough (43_bigint.md R189). -/
def remainders (d : Nat) : Nat → Nat → List Nat
  | 0, _ => []
  | fuel + 1, v => if v = 0 then [] else v % d :: remainders d fuel (v / d)

/-- `to_digits_base_n(v, d)`: the remainders reversed, most significant first (43_bigint.md R185, R187). -/
def digitsOf (d v : Nat) : List Nat := (remainders d v v).reverse

/-- `from_base256(bytes)` (43_bigint.md R182). -/
def fromBase256 (bytes : List Byte) : Nat := valueIn byteRadix (bytes.map (·.toNat))

/-- `to_base256(v, 0)` (43_bigint.md R183): the bytes of a value, most significant first, none for 0. -/
def toBase256 (v : Nat) : List Byte := (digitsOf byteRadix v).map (BitVec.ofNat 8)

/-- `from_digits_base_n(digits, n)` (43_bigint.md R184). -/
def fromDigits (n : Nat) (digits : List Nat) : Nat := valueIn n digits

/-- How many leading elements equal `x` (00_scope.md R13 "Leading zero byte / leading zero symbol"). -/
def leadingCount (x : Nat) : List Nat → Nat
  | [] => 0
  | y :: rest => if y = x then leadingCount x rest + 1 else 0

/-- Completion (44_control.md R212): the code, ERRCHAR and ERRPOS are written, DONE is set, CMDR is emptied. -/
def State.complete (s : State) (code : CompletionCode) (ch : Byte) (pos : Len) : State :=
  { s with err := code, errchar := ch, errpos := pos, done := true, cmdr := none }

/-- Completion with code 0, `Ok` (44_control.md R212). -/
def State.succeed (s : State) : State := s.complete .ok 0 0

/-- `OLEN <- 0`: no OBUF cell holds a value any more (10_state.md R39, 60_exceptions.md R237). -/
def State.dropOutput (s : State) : State := { s with obuf := [], olen := 0 }

/-- OBUF holds exactly the sequence `out` from index 0, and OLEN its length (20_memory.md R68). -/
def State.setOutput (s : State) (out : List Byte) (len : Nat) : State :=
  { s with obuf := cellsFrom 0 out, olen := BitVec.ofNat 32 len }

/-- A new output of `z` elements `pad` and then `body`, and successful completion; refused when it is longer than
the buffer or the length register can be (20_memory.md R68, 93_implementation_defined.md U4). -/
def emit (z : Nat) (pad : Byte) (body : List Byte) (s : State) : Host.Outcome State Fault Refusal :=
  if z + body.length ≤ s.cfg.outputLimit then
    .next (s.setOutput (List.replicate z pad ++ body) (z + body.length)).succeed
  else .refused .outputTooLong

/-- An error with what it records (60_exceptions.md R230). -/
inductive Raised where
  | invalidBase
  | invalidCharacter (c : Byte) (pos : Len)
  | invalidDigit (d : Byte) (pos : Len)
  | illegalCommand
  deriving DecidableEq, Repr

/-- The completion code of an error (60_exceptions.md R230). -/
def Raised.code : Raised → CompletionCode
  | .invalidBase => .invalidBase
  | .invalidCharacter _ _ => .invalidCharacter
  | .invalidDigit _ _ => .invalidDigit
  | .illegalCommand => .illegalCommand

/-- What ERRCHAR records, 0 if nothing (60_exceptions.md R230). -/
def Raised.char : Raised → Byte
  | .invalidBase => 0
  | .invalidCharacter c _ => c
  | .invalidDigit d _ => d
  | .illegalCommand => 0

/-- What ERRPOS records, 0 if nothing (60_exceptions.md R230). -/
def Raised.pos : Raised → Len
  | .invalidBase => 0
  | .invalidCharacter _ p => p
  | .invalidDigit _ p => p
  | .illegalCommand => 0

/-- Whether a failing command leaves OLEN = 0: ENC, DEC and STD with any code but 4 (60_exceptions.md R237). -/
def dropsOutput (command : Option Mnemonic) (e : Raised) : Bool :=
  decide (e.code ≠ .illegalCommand) &&
    (decide (command = some .enc) || decide (command = some .dec) || decide (command = some .std))

/-- Whether a failing command leaves ACC = 0: InvalidCharacter in DEC, InvalidDigit in LDD (60_exceptions.md R238). -/
def dropsAcc (command : Option Mnemonic) (e : Raised) : Bool :=
  (decide (command = some .dec) && decide (e.code = .invalidCharacter)) ||
    (decide (command = some .ldd) && decide (e.code = .invalidDigit))

/-- `raise E(info)` in the pseudocode of a command: R237 to OLEN, R238 to ACC, then completion with the error's code
and what it records (60_exceptions.md R236). `command` is none when no command was recognised (R234, R237). There is
no handler to enter and nothing to return from (R244, R245). -/
def raise (command : Option Mnemonic) (e : Raised) (s : State) : State :=
  let s := if dropsOutput command e then s.dropOutput else s
  let s := if dropsAcc command e then { s with acc := 0 } else s
  s.complete e.code e.char e.pos

/-- Acceptance of a word written to CMD while BUSY = 0 (44_control.md R211): nothing else changes. -/
def accept (w : Word) (s : State) : State := { s with cmdr := some w, done := false, err := .ok }

/-- The reset input (70_reset_and_hazards.md R270, R271): every piece of the engine's state takes its reset value and
ALPHA keeps its own; a command in progress is abandoned. The host's turns and what it has read are the host's, and
unwritten cells get new free values (log 16). -/
def applyReset (s : State) : State :=
  { State.resetWith s.cfg with host := s.host, reads := s.reads, epoch := s.epoch + 1, draws := s.draws }

/-- Run `f` on the next state, or stop as `o` stops. -/
def andThen (o : Host.Outcome State Fault Refusal) (f : State → Host.Outcome State Fault Refusal) :
    Host.Outcome State Fault Refusal :=
  match o with
  | .next s => f s
  | .fault r => .fault r
  | .refused r => .refused r

end Sys2Proof.Machine
end

