-- ==== Sys2Proof/Machine/Operands.lean ====
section
/-! DEFINITION. The operand forms: the base of a command word (30_encoding.md R93), the whole input buffer in index
order (20_memory.md R61, 43_bigint.md R178), and the alphabet's two lookups (40_alphabet.md R124, R127, R128). -/

namespace Sys2Proof.Machine

/-- A base is legal when it is in 2..94 (60_exceptions.md R231, R241); the field is unsigned (30_encoding.md R93). -/
def legalBase (base : BitVec 16) : Bool := decide (minBase ≤ base.toNat) && decide (base.toNat ≤ maxBase)

/-- `MemRead(IBUF, i, 1)` of a cell below CAP: the value the host last wrote, or the free value of a cell not written
since reset (44_control.md R219, 93_implementation_defined.md U1, log 5). -/
def State.ibufCell (s : State) (i : Nat) : Byte :=
  match s.ibuf.read i with
  | some v => v
  | none => Config.unwrittenIbuf s.epoch i

/-- The input of a command: `IBUF[0..ILEN]`, element 0 first (10_state.md R32, 20_memory.md R61). -/
def State.input (s : State) : List Byte := (List.range s.ilen.toNat).map s.ibufCell

/-- The output of the last output-producing command: the cells of `OBUF[0..OLEN]` (10_state.md R33). -/
def State.output (s : State) : List (Option Byte) := (List.range s.olen.toNat).map s.obuf.read

/-- `symbol_for(d)`, for a digit value 0..93: `ALPHA[d]` (40_alphabet.md R127). -/
def symbolFor (cfg : Config) (d : Nat) : Byte := cfg.alpha.getD d 0

/-- `DLUT(c)`: the index of a code in the alphabet, none when it is in no place of it (40_alphabet.md R124). -/
def dlut (cfg : Config) (c : Byte) : Option Nat :=
  if c ∈ cfg.alpha then some (cfg.alpha.idxOf c) else none

/-- `digit_for(c, base)` for a base already validated: none when it fails (40_alphabet.md R128). -/
def digitFor (cfg : Config) (c : Byte) (base : Nat) : Option Nat :=
  match dlut cfg c with
  | none => none
  | some i => if i < base then some i else none

/-- Judge elements in ascending index order, from index `pos`, and stop at the first that fails, giving it and its
index (60_exceptions.md R242); otherwise the digits of all. -/
def scan (digit : Byte → Option Nat) (pos : Nat) : List Byte → Except (Byte × Nat) (List Nat)
  | [] => .ok []
  | c :: rest =>
    match digit c with
    | none => .error (c, pos)
    | some d =>
      match scan digit (pos + 1) rest with
      | .ok ds => .ok (d :: ds)
      | .error e => .error e

/-- The digit that an element of LDD's input is, when it is below the base (43_bigint.md R176). -/
def digitBelow (n : Nat) (d : Byte) : Option Nat := if d.toNat < n then some d.toNat else none

end Sys2Proof.Machine
end

