-- ==== Sys2Proof/Machine/Alphabet.lean ====
section
/-! DEFINITION. The alphabet lookups SYM and DIG (40_alphabet.md section 3). -/

namespace Sys2Proof.Machine

/-- `SYM digit` (40_alphabet.md R125): RES <- ALPHA[digit]. A digit above 93 is an illegal command (30_encoding.md
R95), RES unchanged. -/
def execSym (digit : BitVec 9) (s : State) : Host.Outcome State Fault Refusal :=
  if legalDigit digit then
    .next { s with res := symbolFor s.cfg digit.toNat }.succeed
  else .next (raise none .illegalCommand s)

/-- `DIG c, base` (40_alphabet.md R126): the base first, whatever `c` is, then RES <- the digit of `c`, or
InvalidCharacter with position 0. -/
def execDig (c : BitVec 8) (base : BitVec 16) (s : State) : Host.Outcome State Fault Refusal :=
  if legalBase base then
    match digitFor s.cfg c base.toNat with
    | none => .next (raise (some .dig) (.invalidCharacter c 0) s)
    | some i => .next { s with res := BitVec.ofNat 8 i }.succeed
  else .next (raise (some .dig) .invalidBase s)

end Sys2Proof.Machine
end

