-- ==== Sys2Proof/Machine/BigInt.lean ====
section
/-! DEFINITION. The big-integer commands CLR, MULADD, DIVMOD, LDB, STB, LDD and STD (43_bigint.md sections 4 and 5).
All arithmetic on ACC is that of the natural numbers (43_bigint.md R186). -/

namespace Sys2Proof.Machine

/-- `CLR` (43_bigint.md R171): ACC <- 0. -/
def execClr (s : State) : Host.Outcome State Fault Refusal := .next { s with acc := 0 }.succeed

/-- `MULADD m, a` (43_bigint.md R172): ACC <- ACC·m + a; `a` is not checked against `m`. A radix outside 2..256 is an
illegal command (30_encoding.md R95). -/
def execMuladd (m : BitVec 9) (a : BitVec 8) (s : State) : Host.Outcome State Fault Refusal :=
  if legalRadix m then .next { s with acc := s.acc * m.toNat + a.toNat }.succeed
  else .next (raise none .illegalCommand s)

/-- `DIVMOD d` (43_bigint.md R173): RES <- ACC mod d; ACC <- ACC div d. A radix outside 2..256 is an illegal command
(30_encoding.md R95). -/
def execDivmod (d : BitVec 9) (s : State) : Host.Outcome State Fault Refusal :=
  if legalRadix d then
    .next { s with res := BitVec.ofNat 8 (s.acc % d.toNat), acc := s.acc / d.toNat }.succeed
  else .next (raise none .illegalCommand s)

/-- `LDB` (43_bigint.md R174): ACC <- from_base256(IBUF[0..ILEN]). -/
def execLdb (s : State) : Host.Outcome State Fault Refusal :=
  .next { s with acc := fromBase256 s.input }.succeed

/-- `STB min_length` (43_bigint.md R175): OBUF <- to_base256(ACC, min_length), zero bytes to the left up to
`min_length`, never truncated; ACC is left 0. -/
def execStb (minLength : BitVec 16) (s : State) : Host.Outcome State Fault Refusal :=
  let body := toBase256 s.acc
  emit (minLength.toNat - body.length) 0 body { s with acc := 0 }

/-- `LDD n` (43_bigint.md R176): the base first, then ACC <- from_digits_base_n(IBUF[0..ILEN], n); the first element
not below `n` is reported with InvalidDigit and leaves ACC = 0. -/
def execLdd (n : BitVec 16) (s : State) : Host.Outcome State Fault Refusal :=
  if legalBase n then
    match scan (digitBelow n.toNat) 0 s.input with
    | .error (d, pos) => .next (raise (some .ldd) (.invalidDigit d (BitVec.ofNat 32 pos)) s)
    | .ok ds => .next { s with acc := fromDigits n.toNat ds }.succeed
  else .next (raise (some .ldd) .invalidBase s)

/-- `STD n` (43_bigint.md R177): the base first, then OBUF <- to_digits_base_n(ACC, n) as digit values; ACC is
left 0. -/
def execStd (n : BitVec 16) (s : State) : Host.Outcome State Fault Refusal :=
  if legalBase n then
    emit 0 0 ((digitsOf n.toNat s.acc).map (BitVec.ofNat 8)) { s with acc := 0 }
  else .next (raise (some .std) .invalidBase s)

end Sys2Proof.Machine
end

