-- ==== Sys2Proof/Machine/Control.lean ====
section
/-! DEFINITION. NOP (44_control.md section 3). No other system command exists (R216). -/

namespace Sys2Proof.Machine

/-- `NOP` (44_control.md R215): nothing but the completion registers. -/
def execNop (s : State) : Host.Outcome State Fault Refusal := .next s.succeed

end Sys2Proof.Machine
end

