-- ==== Sys2Proof/Machine/Decoder.lean ====
section
/-! DEFINITION. The decoder, DEC (42_decoder.md). -/

namespace Sys2Proof.Machine

/-- `DEC base` (42_decoder.md R156): the base first (R157); then the characters in index order, the first that is no
digit of the base reported (R158); then one zero byte per leading zero symbol (R160) and the bytes of the value. ACC is
not read and is left 0, also by InvalidCharacter (60_exceptions.md R238). -/
def execDec (base : BitVec 16) (s : State) : Host.Outcome State Fault Refusal :=
  if legalBase base then
    match scan (fun c => digitFor s.cfg c base.toNat) 0 s.input with
    | .error (c, pos) => .next (raise (some .dec) (.invalidCharacter c (BitVec.ofNat 32 pos)) s)
    | .ok ds => emit (leadingCount 0 ds) 0 (toBase256 (fromDigits base.toNat ds)) { s with acc := 0 }
  else .next (raise (some .dec) .invalidBase s)

end Sys2Proof.Machine
end

