-- ==== Sys2Proof/Machine/Encoder.lean ====
section
/-! DEFINITION. The encoder, ENC (41_encoder.md). -/

namespace Sys2Proof.Machine

/-- The digits of `encode(bytes, base)` after the zero symbols: those of the value of the bytes that follow the
leading zero bytes (41_encoder.md R141, R145). -/
def encodeDigits (base : Nat) (x : List Byte) : List Nat :=
  digitsOf base (fromBase256 (x.drop (leadingCount 0 (x.map (·.toNat)))))

/-- `ENC base` (41_encoder.md R141): the base first (R142); then one zero symbol per leading zero byte of the input and
the symbols of the digits of the rest's value. ACC is not read and is left 0. -/
def execEnc (base : BitVec 16) (s : State) : Host.Outcome State Fault Refusal :=
  if legalBase base then
    emit (leadingCount 0 (s.input.map (·.toNat))) (symbolFor s.cfg 0)
      ((encodeDigits base.toNat s.input).map (symbolFor s.cfg)) { s with acc := 0 }
  else .next (raise (some .enc) .invalidBase s)

end Sys2Proof.Machine
end

