-- ==== Sys2Proof/Machine/Dispatch.lean ====
section
/-! DEFINITION. One arm per command: what executing and completing it does (44_control.md R213). -/

namespace Sys2Proof.Machine

def exec (i : Instr) (s : State) : Host.Outcome State Fault Refusal :=
  match i with
  | .nop => Sys2Proof.Machine.execNop s
  | .enc base => Sys2Proof.Machine.execEnc base s
  | .dec base => Sys2Proof.Machine.execDec base s
  | .ldb => Sys2Proof.Machine.execLdb s
  | .stb minLength => Sys2Proof.Machine.execStb minLength s
  | .ldd n => Sys2Proof.Machine.execLdd n s
  | .std n => Sys2Proof.Machine.execStd n s
  | .muladd m a => Sys2Proof.Machine.execMuladd m a s
  | .divmod d => Sys2Proof.Machine.execDivmod d s
  | .sym digit => Sys2Proof.Machine.execSym digit s
  | .dig c base => Sys2Proof.Machine.execDig c base s
  | .clr => Sys2Proof.Machine.execClr s

end Sys2Proof.Machine
end

