-- ==== Sys2Proof/Machine/Engine.lean ====
section
/-! DEFINITION. The engine's step (44_control.md R213): decode the word CMDR holds, run and complete it. -/

namespace Sys2Proof.Machine

/-- `engine_step` on the word `w` (44_control.md R213): an illegal word completes with IllegalCommand, a command runs. -/
def runWord (w : Word) (s : State) : Host.Outcome State Fault Refusal :=
  match decode w with
  | .ok i => exec i s
  | .error _ => .next (raise none .illegalCommand s)

/-- The engine has a step exactly when CMDR holds a word (44_control.md R213); idle, it keeps all its state
(60_exceptions.md R254). -/
def engineStep (s : State) : Host.Outcome State Fault Refusal :=
  match s.cmdr with
  | some w => runWord w s
  | none => .next s

/-- The word of an instruction's `nbits` bits, the bits above them zero. -/
def tableWord (nbits w : Nat) : Word := BitVec.ofNat 32 (w % 2 ^ nbits)

end Sys2Proof.Machine
end

