-- ==== Sys2Proof/Machine/Flags.lean ====
section
/-! DEFINITION. The flags, the four fields of STATUS (10_state.md R28, R29): BUSY and Z are computed, DONE and ERR are
stored. No command reads one. -/

namespace Sys2Proof.Machine

/-- `STATUS.BUSY`: 1 exactly when CMDR is not none (10_state.md R27). -/
def State.busy (s : State) : Bool := s.cmdr.isSome

/-- `STATUS.Z`: 1 exactly when ACC = 0 (10_state.md R28). -/
def State.zero (s : State) : Bool := decide (s.acc = 0)

/-- The STATUS word of four field values: bit 0 BUSY, bit 1 DONE, bit 2 Z, bit 3 and bits 31:8 zero, bits 7:4 ERR
(10_state.md R29). -/
def statusOf (busy done zero : Bool) (err : BitVec 4) : Word :=
  (0#24 : BitVec 24) ++ err ++ (0#1 : BitVec 1) ++ BitVec.ofBool zero ++ BitVec.ofBool done ++ BitVec.ofBool busy

/-- What a read of STATUS gives while BUSY = 0 (10_state.md R29). -/
def State.statusIdle (s : State) : Word := statusOf false s.done s.zero s.err.bits

/-- What a read of STATUS gives while BUSY = 1: BUSY reads 1 and DONE as stored; Z and ERR are unspecified and come
from the free value `free` (10_state.md R28, 93_implementation_defined.md U5, log 7). -/
def State.statusBusy (s : State) (free : BitVec 5) : Word :=
  statusOf true s.done (free.getLsbD 0) (free.extractLsb' 1 4)

end Sys2Proof.Machine
end

