-- ==== Sys2Proof/Machine/HostPort.lean ====
section
/-! DEFINITION. The host's side: register reads and writes (44_control.md R217, R218), buffer accesses (R219), bus
addresses (20_memory.md R65), the busy interval (70_reset_and_hazards.md R276), the host actions IN, CMD, OUT, MOVE
(30_encoding.md R102) and the host's turn. -/

namespace Sys2Proof.Machine

/-- The host has read `v`. -/
def State.logRead (s : State) (v : HostRead) : State := { s with reads := s.reads ++ [v] }

/-- A free value was drawn, so that the next one is another. -/
def State.drew (s : State) : State := { s with draws := s.draws + 1 }

/-- `v <- x[n]` while BUSY = 0 (44_control.md R217): CMD reads 0, narrower registers are zero-extended; no register
above 6 exists (10_state.md R30). -/
def readRegIdle (n : Nat) (s : State) : Host.Outcome State Fault Refusal :=
  match n with
  | 0 => .next (s.logRead (.reg 0 0))
  | 1 => .next (s.logRead (.reg 1 s.statusIdle))
  | 2 => .next (s.logRead (.reg 2 s.ilen))
  | 3 => .next (s.logRead (.reg 3 s.olen))
  | 4 => .next (s.logRead (.reg 4 (s.res.setWidth 32)))
  | 5 => .next (s.logRead (.reg 5 (s.errchar.setWidth 32)))
  | 6 => .next (s.logRead (.reg 6 s.errpos))
  | _ => .fault .noSuchRegister

/-- Whether ILEN may be written with `v`: at most CAP (10_state.md R32). -/
def allowsLength (cfg : Config) (v : Word) : Bool :=
  match cfg.cap with
  | none => true
  | some c => decide (v.toNat ≤ c)

/-- `x[n] <- v` while BUSY = 0 (44_control.md R218): CMD accepts the word, ILEN is written, the read-only registers
ignore it. -/
def writeRegIdle (n : Nat) (v : Word) (s : State) : Host.Outcome State Fault Refusal :=
  match n with
  | 0 => .next (accept v s)
  | 1 => .next s
  | 2 => if allowsLength s.cfg v then .next { s with ilen := v } else .refused .lengthAboveCap
  | 3 => .next s
  | 4 => .next s
  | 5 => .next s
  | 6 => .next s
  | _ => .fault .noSuchRegister

/-- The register at a bus address: register `n` at byte offset 4·n from RCE_BASE, reached only by an aligned access of
4 bytes (10_state.md R30, 20_memory.md R65, 93_implementation_defined.md U8). -/
def registerAt (cfg : Config) (addr bytes : Nat) : Option Nat :=
  match cfg.rceBase with
  | none => none
  | some base =>
    if bytes = 4 ∧ base ≤ addr ∧ (addr - base) % 4 = 0 ∧ (addr - base) / 4 ≤ 6 then some ((addr - base) / 4) else none

/-- An IBUF cell read by the host (44_control.md R219). -/
def readIbufIdle (i : Nat) (s : State) : Host.Outcome State Fault Refusal :=
  if s.cfg.hasCell i then .next (s.logRead (.ibuf i (s.ibufCell i))) else .fault .noSuchCell

/-- An IBUF cell written by the host; ILEN is not changed (44_control.md R219). -/
def writeIbufIdle (i : Nat) (v : Byte) (s : State) : Host.Outcome State Fault Refusal :=
  if s.cfg.hasCell i then .next { s with ibuf := s.ibuf.write i v } else .fault .noSuchCell

/-- An OBUF cell read by the host: the value of a cell below OLEN, a free value for a cell that holds none
(44_control.md R219, 93_implementation_defined.md U2, log 6). -/
def readObufIdle (i : Nat) (s : State) : Host.Outcome State Fault Refusal :=
  if s.cfg.hasCell i then
    match (if i < s.olen.toNat then s.obuf.read i else none) with
    | some v => .next (s.logRead (.obuf i v))
    | none => .next (s.logRead (.obuf i (Config.staleObuf s.draws i))).drew
  else .fault .noSuchCell

/-- A host write to OBUF is ignored (10_state.md R39, 44_control.md R219). -/
def writeObufIdle (i : Nat) (s : State) : Host.Outcome State Fault Refusal :=
  if s.cfg.hasCell i then .next s else .fault .noSuchCell

/-- One access while BUSY = 0. -/
def accessIdle (a : HostAccess) (s : State) : Host.Outcome State Fault Refusal :=
  match a with
  | .readReg n => readRegIdle n s
  | .writeReg n v => writeRegIdle n v s
  | .readAddr addr bytes =>
    match registerAt s.cfg addr bytes with
    | some n => readRegIdle n s
    | none => .fault .noSuchRegister
  | .writeAddr addr bytes v =>
    match registerAt s.cfg addr bytes with
    | some n => writeRegIdle n v s
    | none => .fault .noSuchRegister
  | .readIbuf i => readIbufIdle i s
  | .writeIbuf i v => writeIbufIdle i v s
  | .readObuf i => readObufIdle i s
  | .writeObuf i _ => writeObufIdle i s

/-- Whether an access is a read of STATUS, by number or by address. -/
def readsStatus (a : HostAccess) (s : State) : Bool :=
  match a with
  | .readReg n => decide (n = 1)
  | .readAddr addr bytes => decide (registerAt s.cfg addr bytes = some 1)
  | .writeReg _ _ => false
  | .writeAddr _ _ _ => false
  | .readIbuf _ => false
  | .writeIbuf _ _ => false
  | .readObuf _ => false
  | .writeObuf _ _ => false

/-- One access while BUSY = 1: only a read of STATUS has a meaning (70_reset_and_hazards.md R276), and its Z and ERR
bits are free (93_implementation_defined.md U5, log 7). -/
def accessBusy (a : HostAccess) (s : State) : Host.Outcome State Fault Refusal :=
  if readsStatus a s then .next (s.logRead (.reg 1 (s.statusBusy (Config.busyStatus s.draws)))).drew
  else .refused .busyAccess

/-- One host access (44_control.md R217, R218, R219; 70_reset_and_hazards.md R276). -/
def hostAccess (a : HostAccess) (s : State) : Host.Outcome State Fault Refusal :=
  if s.busy then accessBusy a s else accessIdle a s

/-- Accesses one after the other, in the order the host issues them (20_memory.md R70 (a)). -/
def hostAccesses : List HostAccess → State → Host.Outcome State Fault Refusal
  | [], s => .next s
  | a :: rest, s => andThen (hostAccess a s) (hostAccesses rest)

/-- `OUT`: OLEN, then OBUF[0] .. OBUF[OLEN−1] (30_encoding.md R102). -/
def hostOut (s : State) : Host.Outcome State Fault Refusal :=
  hostAccesses (.readReg 3 :: (List.range s.olen.toNat).map .readObuf) s

/-- The elements among the values read. -/
def elementsRead : List HostRead → List Byte
  | [] => []
  | .obuf _ v :: rest => v :: elementsRead rest
  | .ibuf _ v :: rest => v :: elementsRead rest
  | .reg _ _ :: rest => elementsRead rest

/-- Writes of a sequence to IBUF from index `start`. -/
def ibufWrites (start : Nat) : List Byte → List HostAccess
  | [] => []
  | v :: rest => .writeIbuf start v :: ibufWrites (start + 1) rest

/-- `IN [e0, e1, ...]`: the cells, then ILEN (30_encoding.md R102). DESIGN CHOICE (log 25): the count of 2^32 elements or
more does not fit ILEN (10_state.md R32, 93_implementation_defined.md U3), and its low 32 bits are written. -/
def inputAccesses (es : List Byte) : List HostAccess :=
  ibufWrites 0 es ++ [.writeReg 2 (BitVec.ofNat 32 es.length)]

/-- `MOVE`: `OUT`, then `IN` of the elements it read (30_encoding.md R102). -/
def hostMove (s : State) : Host.Outcome State Fault Refusal :=
  andThen (hostOut s) fun t => hostAccesses (inputAccesses (elementsRead (t.reads.drop s.reads.length))) t

/-- What one turn of the host's side does. -/
def hostAction (a : HostAction) (s : State) : Host.Outcome State Fault Refusal :=
  match a with
  | .access a => hostAccess a s
  | .out => hostOut s
  | .move => hostMove s
  | .reset => .next (applyReset s)

/-- The next turn of the host is taken out of the list and done. With none left the idle engine keeps all its state
(60_exceptions.md R254, log 13). -/
def hostStep (s : State) : Host.Outcome State Fault Refusal :=
  match s.host with
  | [] => .next s
  | t :: rest => hostAction t.action { s with host := rest }

/-- Whether it is the engine's turn: a command is in progress and the host's next turn, if any, waits for BUSY = 0
(44_control.md R213, log 11). -/
def State.engineTurn (s : State) : Bool :=
  s.busy && (match s.host with
    | [] => true
    | t :: _ => t.waits)

/-- The turns of `IN [e0, e1, ...]` (30_encoding.md R102). -/
def turnsIn (es : List Byte) : List HostTurn := (inputAccesses es).map fun a => ⟨true, .access a⟩

/-- The turn of `CMD <command>` (30_encoding.md R102): the assembled word is written to register 0. -/
def turnCmd (i : Instr) : HostTurn := ⟨true, .access (.writeReg 0 (encode i))⟩

end Sys2Proof.Machine
end

