-- ==== Sys2Proof/Machine/Step.lean ====
section
/-! DEFINITION. One step of the machine: the engine's step or the host's next turn, as the plain data of State says
(00_scope.md R15, 44_control.md R210). -/

namespace Sys2Proof.Machine

/-- One step: the engine's when it is its turn, otherwise the host's next turn. -/
def step (s : State) : Host.Outcome State Fault Refusal :=
  if s.engineTurn then engineStep s else hostStep s

/-- `s` with the word accepted as a write to CMD accepts it (44_control.md R211) and no host turn before the engine's
step, so that the very next step runs it (log 12). -/
def State.withFetchWord (s : State) (nbits w : Nat) : State :=
  { accept (tableWord nbits w) s with host := [] }

end Sys2Proof.Machine
end

