-- ==== Sys2Proof/Machine/Limbs.lean ====
section
/-! DEFINITION. The datapath at limb level (43_bigint.md R179, R180): the refinement of MULADD and DIVMOD on a limb
vector, least significant limb first, for any limb width (10_state.md R22). It is not part of State (log 4): the number
ACC is the architectural value. -/

namespace Sys2Proof.Machine

/-- The number a limb vector stands for (10_state.md R22). -/
def limbValue (width : Nat) : List Nat → Nat
  | [] => 0
  | x :: rest => x + 2 ^ width * limbValue width rest

/-- Every limb fits, and the top limb is not 0 (10_state.md R22 "kept normalised"). -/
def limbNormal (width : Nat) (l : List Nat) : Bool :=
  l.all (fun x => decide (x < 2 ^ width)) && decide (l.getLast? ≠ some 0)

/-- The loop of 43_bigint.md R179 from a limb upward: the new limbs, and the last carry split into limbs (one limb when
the width is 8 or more, R181). -/
def muladdFrom (width m : Nat) (carry : Nat) : List Nat → List Nat
  | [] => remainders (2 ^ width) carry carry
  | x :: rest =>
    let t := x * m + carry
    t % 2 ^ width :: muladdFrom width m (t / 2 ^ width) rest

/-- `muladd_limbs(m, a)` (43_bigint.md R179). -/
def muladdLimbs (width m a : Nat) (l : List Nat) : List Nat := muladdFrom width m a l

/-- The loop of 43_bigint.md R180, most significant limb first: the quotient limbs and the remainder. -/
def divmodFrom (width d : Nat) : List Nat → List Nat × Nat
  | [] => ([], 0)
  | x :: rest =>
    let below := divmodFrom width d rest
    let t := below.2 * 2 ^ width + x
    (t / d :: below.1, t % d)

/-- Drop the zero limbs at the top (43_bigint.md R180 "renormalise"). -/
def trimTop : List Nat → List Nat
  | [] => []
  | x :: rest =>
    match trimTop rest with
    | [] => if x = 0 then [] else [x]
    | y :: ys => x :: y :: ys

/-- `divmod_limbs(d)` (43_bigint.md R180): the quotient's limbs, normalised, and the remainder. -/
def divmodLimbs (width d : Nat) (l : List Nat) : List Nat × Nat :=
  (trimTop (divmodFrom width d l).1, (divmodFrom width d l).2)

end Sys2Proof.Machine
end

