-- ==== Sys2Proof/Safety.lean ====
section
/-! DEFINITION. The terms that claims about runs use: the invariant of the machine's states, and when a command's
output fits so that the command completes. -/

namespace Sys2Proof.Machine

/-- What holds of every state a run reaches: the configuration is an allowed instance (00_scope.md R6), the buffers are
in canonical form within CAP (10_state.md R32, R38), OBUF holds exactly the cells below OLEN (R39), ERRCHAR and ERRPOS
are 0 after a command that recorded nothing (44_control.md R212), and a command in progress shows DONE = 0 and ERR = 0
(R211). -/
structure State.Inv (s : State) : Prop where
  config : s.cfg.Ok
  ibufCanonical : s.ibuf.wf = true
  ibufWithinCap : ∀ i v, s.ibuf.read i = some v → s.cfg.hasCell i = true
  ilenWithinCap : allowsLength s.cfg s.ilen = true
  obufCanonical : s.obuf.wf = true
  obufIsOutput : ∀ i, (s.obuf.read i).isSome = decide (i < s.olen.toNat)
  olenWithinLimit : s.olen.toNat ≤ s.cfg.outputLimit
  recordsNothing : s.cmdr = none → s.err ≠ .invalidCharacter → s.err ≠ .invalidDigit → s.errchar = 0 ∧ s.errpos = 0
  inProgress : s.cmdr ≠ none → s.done = false ∧ s.err = .ok

/-- How many elements a command's output has, 0 for a command that produces none or fails (20_memory.md R68). -/
def outputLength (i : Instr) (s : State) : Nat :=
  match i with
  | .enc base =>
    if legalBase base then leadingCount 0 (s.input.map (·.toNat)) + (encodeDigits base.toNat s.input).length else 0
  | .dec base =>
    if legalBase base then
      match scan (fun c => digitFor s.cfg c base.toNat) 0 s.input with
      | .ok ds => leadingCount 0 ds + (toBase256 (fromDigits base.toNat ds)).length
      | .error _ => 0
    else 0
  | .stb minLength => max minLength.toNat (toBase256 s.acc).length
  | .std n => if legalBase n then (digitsOf n.toNat s.acc).length else 0
  | .nop => 0
  | .ldb => 0
  | .ldd _ => 0
  | .muladd _ _ => 0
  | .divmod _ => 0
  | .sym _ => 0
  | .dig _ _ => 0
  | .clr => 0

/-- The output of a command fits OBUF and OLEN, so that the command is not refused (93_implementation_defined.md U4). -/
def OutputFits (i : Instr) (s : State) : Prop := outputLength i s ≤ s.cfg.outputLimit

/-- The host has written every cell of the input since reset: the premise that 93_implementation_defined.md U1 asks of a
claim about a command that reads the input (log 5). -/
abbrev State.InputWritten (s : State) : Prop := ∀ i < s.ilen.toNat, (s.ibuf.read i).isSome = true

/-- `val_r(s)` as 00_scope.md R8 writes it: the sum of `s[i] · r^(n−1−i)`. -/
def positional (r : Nat) (s : List Nat) : Nat :=
  ∑ k ∈ Finset.range s.length, s.getD k 0 * r ^ (s.length - 1 - k)

/-- The digits of `v` in radix `r` by the library's definition, most significant first, none for 0
(43_bigint.md R185, R187). -/
def bigEndian (r v : Nat) : List Nat := (Nat.digits r v).reverse

/-- How many leading elements of `x` are `y` (00_scope.md R13 "Leading zero byte / leading zero symbol"). -/
def leading (y : Byte) (x : List Byte) : Nat := (x.takeWhile (· == y)).length

/-- The output in the closed form of ENC (41_encoder.md R141): zero symbols, then the symbols of the digits of the value
of the bytes after the leading zero bytes. -/
def encoded (alpha : List Byte) (base : Nat) (x : List Byte) : List Byte :=
  List.replicate (leading 0 x) (alpha.getD 0 0) ++
    (bigEndian base (positional 256 ((x.drop (leading 0 x)).map (·.toNat)))).map (alpha.getD · 0)

/-- The output in the closed form of DEC (42_decoder.md R156) for a string of symbols: zero bytes, then the bytes of the
value of the digits. -/
def decoded (alpha : List Byte) (base : Nat) (x : List Byte) : List Byte :=
  List.replicate ((x.takeWhile (fun c => alpha.idxOf c == 0)).length) 0 ++
    (bigEndian 256 (positional base (x.map alpha.idxOf))).map (BitVec.ofNat 8)

/-- The command can complete with this code when its word is legal (60_exceptions.md section 1, the table). -/
def mayComplete : Mnemonic → CompletionCode → Bool
  | _, .ok => true
  | .enc, .invalidBase => true
  | .dec, .invalidBase => true
  | .ldd, .invalidBase => true
  | .std, .invalidBase => true
  | .dig, .invalidBase => true
  | .dec, .invalidCharacter => true
  | .dig, .invalidCharacter => true
  | .ldd, .invalidDigit => true
  | _, _ => false

end Sys2Proof.Machine
end

