-- ==== Sys2Proof/Certificates/Slice0/Obligations.lean ====
section
/-! DEFINITION. The statements for the provers, each from the numbered rules of spec/. A statement that gives a whole
next state names every field that changes; every other field, each buffer cell among them, is as before. -/

open Sys2Proof Sys2Proof.Machine

/-! ## Command words (30_encoding.md) -/

/-- Every well-formed command decodes from its word, and a word decodes only to the command whose word it is: no bit of
an encoding is dropped (30_encoding.md section 4, the last sentence after the decoding procedure). -/
def Obligations.DecodeInvertsEncode : Prop :=
  (∀ i : Instr, i.wf = true → decode (encode i) = .ok i) ∧
  (∀ (w : Word) (i : Instr), decode w = .ok i → i.wf = true ∧ encode i = w)

/-- R97: a word is illegal exactly when OPC is 0xC..0xF, or a must-be-zero bit of its row is 1, or an operand is outside
its domain; such a word is accepted like any other and its execution changes nothing but the completion registers; only
the word 0 is a NOP. -/
def Obligations.IllegalWordsAreTheseAndOnlyComplete : Prop :=
  (∀ w : Word, (∃ e, decode w = .error e) ↔
    12 ≤ (w >>> 28).toNat ∨
    (∃ m : Mnemonic, w >>> 28 = (rowOf m).bits >>> 28 ∧ w &&& (rowOf m).mask ≠ (rowOf m).bits) ∨
    ((w >>> 28 = 7#32 ∨ w >>> 28 = 8#32) ∧ ¬ (2 ≤ (w.extractLsb' 16 9).toNat ∧ (w.extractLsb' 16 9).toNat ≤ 256)) ∨
    (w >>> 28 = 9#32 ∧ 93 < (w.extractLsb' 16 9).toNat)) ∧
  (∀ (w : Word) (s : State), s.cmdr = none →
    hostAccess (.writeReg 0 w) s = .next { s with cmdr := some w, done := false, err := .ok }) ∧
  (∀ (w : Word) (e : Illegal) (s : State), decode w = .error e → s.cmdr = some w → s.engineTurn = true →
    step s = .next { s with err := .illegalCommand, errchar := 0, errpos := 0, done := true, cmdr := none }) ∧
  (∀ w : Word, decode w = .ok .nop ↔ w = 0#32)

/-- A few words of 30_encoding.md R100 and of 95_test_vectors.md section 2.1 decode to the commands they stand for. -/
def Obligations.SampleWordsDecode : Prop :=
  decode 0x00000000#32 = .ok .nop ∧ decode 0x1000005E#32 = .ok (.enc 94) ∧ decode 0x2000000A#32 = .ok (.dec 10) ∧
  decode 0x30000000#32 = .ok .ldb ∧ decode 0x40000003#32 = .ok (.stb 3) ∧ decode 0x5000000A#32 = .ok (.ldd 10) ∧
  decode 0x6000005E#32 = .ok (.std 94) ∧ decode 0x71000048#32 = .ok (.muladd 256 0x48) ∧
  decode 0x805E0000#32 = .ok (.divmod 94) ∧ decode 0x905D0000#32 = .ok (.sym 93) ∧
  decode 0xA0610010#32 = .ok (.dig 0x61 16) ∧ decode 0xB0000000#32 = .ok .clr

/-! ## Commands (40_alphabet.md to 44_control.md) -/

/-- R215: NOP completes and changes nothing else; a word with OPC = 0 and any other bit set is illegal. -/
def Obligations.NopOnlyCompletes : Prop :=
  (∀ s : State, exec .nop s =
    .next { s with err := .ok, errchar := 0, errpos := 0, done := true, cmdr := none }) ∧
  encode .nop = 0x00000000#32 ∧
  (∀ w : Word, w >>> 28 = 0#32 → ((∃ e, decode w = .error e) ↔ w ≠ 0#32))

/-- R171: CLR leaves ACC = 0, so Z = 1, and nothing else changes but the completion registers. -/
def Obligations.ClrZeroesAcc : Prop :=
  (∀ s : State, exec .clr s =
    .next { s with acc := 0, err := .ok, errchar := 0, errpos := 0, done := true, cmdr := none }) ∧
  (∀ s t : State, exec .clr s = .next t → t.zero = true) ∧
  encode .clr = 0xB0000000#32

/-- R172: MULADD computes ACC·m + a for every legal radix and every addend, and Z afterwards is 1 iff the old ACC and `a`
are 0; with a radix outside 2..256, or a must-be-zero bit set, it is an illegal command and ACC is unchanged. -/
def Obligations.MuladdMultipliesAndAdds : Prop :=
  (∀ (s : State) (m : BitVec 9) (a : BitVec 8), 2 ≤ m.toNat → m.toNat ≤ 256 →
    exec (.muladd m a) s = .next { s with
      acc := s.acc * m.toNat + a.toNat, err := .ok, errchar := 0, errpos := 0, done := true, cmdr := none }) ∧
  (∀ (s t : State) (m : BitVec 9) (a : BitVec 8), 2 ≤ m.toNat → m.toNat ≤ 256 → exec (.muladd m a) s = .next t →
    (t.zero = true ↔ s.acc = 0 ∧ a = 0)) ∧
  (∀ (s : State) (m : BitVec 9) (a : BitVec 8), m.toNat < 2 ∨ 256 < m.toNat →
    exec (.muladd m a) s =
      .next { s with err := .illegalCommand, errchar := 0, errpos := 0, done := true, cmdr := none }) ∧
  (∀ (m : BitVec 9) (a : BitVec 8),
    encode (.muladd m a) = BitVec.ofNat 32 (0x70000000 + m.toNat * 0x10000 + a.toNat)) ∧
  (∀ w : Word, w >>> 28 = 7#32 → ((∃ e, decode w = .error e) ↔
    w &&& 0x0E00FF00#32 ≠ 0#32 ∨ (w.extractLsb' 16 9).toNat < 2 ∨ 256 < (w.extractLsb' 16 9).toNat))

/-- R173: DIVMOD puts ACC mod d in RES, where it fits, and ACC div d in ACC, and Z afterwards is 1 iff the old ACC was
below d; with a radix outside 2..256, or a must-be-zero bit set, it is an illegal command and ACC and RES are
unchanged. -/
def Obligations.DivmodDividesBySmall : Prop :=
  (∀ (s : State) (d : BitVec 9), 2 ≤ d.toNat → d.toNat ≤ 256 →
    exec (.divmod d) s = .next { s with
      res := BitVec.ofNat 8 (s.acc % d.toNat), acc := s.acc / d.toNat,
      err := .ok, errchar := 0, errpos := 0, done := true, cmdr := none }) ∧
  (∀ (s t : State) (d : BitVec 9), 2 ≤ d.toNat → d.toNat ≤ 256 → exec (.divmod d) s = .next t →
    s.acc = t.acc * d.toNat + t.res.toNat ∧ t.res.toNat < d.toNat ∧ (t.zero = true ↔ s.acc < d.toNat)) ∧
  (∀ (s : State) (d : BitVec 9), d.toNat < 2 ∨ 256 < d.toNat →
    exec (.divmod d) s =
      .next { s with err := .illegalCommand, errchar := 0, errpos := 0, done := true, cmdr := none }) ∧
  (∀ d : BitVec 9, encode (.divmod d) = BitVec.ofNat 32 (0x80000000 + d.toNat * 0x10000)) ∧
  (∀ w : Word, w >>> 28 = 8#32 → ((∃ e, decode w = .error e) ↔
    w &&& 0x0E00FFFF#32 ≠ 0#32 ∨ (w.extractLsb' 16 9).toNat < 2 ∨ 256 < (w.extractLsb' 16 9).toNat))

/-- R174: LDB leaves in ACC the value of the input bytes in radix 256, 0 for no input; for an input the host has written
(93_implementation_defined.md U1). -/
def Obligations.LdbLoadsPositionalValue : Prop :=
  (∀ s : State, s.InputWritten → exec .ldb s = .next { s with
    acc := positional 256 (s.input.map (·.toNat)), err := .ok, errchar := 0, errpos := 0, done := true, cmdr := none }) ∧
  encode .ldb = 0x30000000#32

/-- R175: STB writes the bytes of ACC, most significant first, padded with zero bytes to at least `min_length` and never
truncated, sets OLEN to the length and leaves ACC = 0; for every output that fits. -/
def Obligations.StbStoresPaddedBytes : Prop :=
  (∀ (s : State) (m : BitVec 16), max m.toNat (bigEndian 256 s.acc).length ≤ s.cfg.outputLimit →
    exec (.stb m) s = .next { s with
      acc := 0,
      obuf := cellsFrom 0 (List.replicate (m.toNat - (bigEndian 256 s.acc).length) 0 ++
        (bigEndian 256 s.acc).map (BitVec.ofNat 8)),
      olen := BitVec.ofNat 32 (max m.toNat (bigEndian 256 s.acc).length),
      err := .ok, errchar := 0, errpos := 0, done := true, cmdr := none }) ∧
  (∀ m : BitVec 16, encode (.stb m) = BitVec.ofNat 32 (0x40000000 + m.toNat))

/-- R176: LDD with a base outside 2..94 completes with InvalidBase; with digits all below the base it leaves their value
in ACC; otherwise it reports the lowest-indexed element that is not, and leaves ACC = 0; for an input the host has written
(93_implementation_defined.md U1). -/
def Obligations.LddLoadsDigitsOrReportsFirstBad : Prop :=
  (∀ (s : State) (n : BitVec 16), n.toNat < 2 ∨ 94 < n.toNat → exec (.ldd n) s =
    .next { s with err := .invalidBase, errchar := 0, errpos := 0, done := true, cmdr := none }) ∧
  (∀ (s : State) (n : BitVec 16), s.InputWritten → 2 ≤ n.toNat → n.toNat ≤ 94 → (∀ d ∈ s.input, d.toNat < n.toNat) →
    exec (.ldd n) s = .next { s with
      acc := positional n.toNat (s.input.map (·.toNat)), err := .ok, errchar := 0, errpos := 0, done := true,
      cmdr := none }) ∧
  (∀ (s : State) (n : BitVec 16) (k : Nat) (d : Byte), s.InputWritten → 2 ≤ n.toNat → n.toNat ≤ 94 →
    s.input[k]? = some d → n.toNat ≤ d.toNat → (∀ j < k, ∀ x ∈ s.input[j]?, x.toNat < n.toNat) →
    exec (.ldd n) s = .next { s with
      acc := 0, err := .invalidDigit, errchar := d, errpos := BitVec.ofNat 32 k, done := true, cmdr := none }) ∧
  (∀ n : BitVec 16, encode (.ldd n) = BitVec.ofNat 32 (0x50000000 + n.toNat))

/-- R177: STD with a base outside 2..94 completes with InvalidBase and no output; otherwise it writes the digits of ACC,
most significant first, none for 0, sets OLEN and leaves ACC = 0; for every output that fits. -/
def Obligations.StdStoresDigits : Prop :=
  (∀ (s : State) (n : BitVec 16), n.toNat < 2 ∨ 94 < n.toNat → exec (.std n) s =
    .next { s with
      obuf := [], olen := 0, err := .invalidBase, errchar := 0, errpos := 0, done := true, cmdr := none }) ∧
  (∀ (s : State) (n : BitVec 16), 2 ≤ n.toNat → n.toNat ≤ 94 →
    (bigEndian n.toNat s.acc).length ≤ s.cfg.outputLimit →
    exec (.std n) s = .next { s with
      acc := 0, obuf := cellsFrom 0 ((bigEndian n.toNat s.acc).map (BitVec.ofNat 8)),
      olen := BitVec.ofNat 32 (bigEndian n.toNat s.acc).length,
      err := .ok, errchar := 0, errpos := 0, done := true, cmdr := none }) ∧
  (∀ n : BitVec 16, encode (.std n) = BitVec.ofNat 32 (0x60000000 + n.toNat))

/-- R125: SYM puts ALPHA[digit] in RES for a digit 0..93; a digit above 93 is an illegal command, RES unchanged. -/
def Obligations.SymLooksUpSymbol : Prop :=
  (∀ (s : State) (d : BitVec 9), d.toNat ≤ 93 → exec (.sym d) s = .next { s with
    res := s.cfg.alpha.getD d.toNat 0, err := .ok, errchar := 0, errpos := 0, done := true, cmdr := none }) ∧
  (∀ (s : State) (d : BitVec 9), 93 < d.toNat → exec (.sym d) s =
    .next { s with err := .illegalCommand, errchar := 0, errpos := 0, done := true, cmdr := none }) ∧
  (∀ d : BitVec 9, encode (.sym d) = BitVec.ofNat 32 (0x90000000 + d.toNat * 0x10000))

/-- R126: DIG checks the base first, whatever the character is; then it puts in RES the index of a character among the
first `base` symbols, and reports any other character with position 0, RES unchanged. -/
def Obligations.DigLooksUpDigit : Prop :=
  (∀ (s : State) (c : BitVec 8) (b : BitVec 16), b.toNat < 2 ∨ 94 < b.toNat → exec (.dig c b) s =
    .next { s with err := .invalidBase, errchar := 0, errpos := 0, done := true, cmdr := none }) ∧
  (∀ (s : State) (c : BitVec 8) (b : BitVec 16), 2 ≤ b.toNat → b.toNat ≤ 94 → c ∈ s.cfg.alpha.take b.toNat →
    exec (.dig c b) s = .next { s with
      res := BitVec.ofNat 8 (s.cfg.alpha.idxOf c), err := .ok, errchar := 0, errpos := 0, done := true,
      cmdr := none }) ∧
  (∀ (s : State) (c : BitVec 8) (b : BitVec 16), 2 ≤ b.toNat → b.toNat ≤ 94 → c ∉ s.cfg.alpha.take b.toNat →
    exec (.dig c b) s =
      .next { s with err := .invalidCharacter, errchar := c, errpos := 0, done := true, cmdr := none }) ∧
  (∀ (c : BitVec 8) (b : BitVec 16),
    encode (.dig c b) = BitVec.ofNat 32 (0xA0000000 + c.toNat * 0x10000 + b.toNat))

/-- R141: ENC with a base outside 2..94 completes with InvalidBase, no output and ACC unchanged; otherwise it writes one
zero symbol per leading zero byte and the symbols of the digits of the rest's value, sets OLEN and leaves ACC = 0; for
every input the host has written (93_implementation_defined.md U1) and every output that fits. -/
def Obligations.EncEncodesInput : Prop :=
  (∀ (s : State) (b : BitVec 16), b.toNat < 2 ∨ 94 < b.toNat → exec (.enc b) s =
    .next { s with
      obuf := [], olen := 0, err := .invalidBase, errchar := 0, errpos := 0, done := true, cmdr := none }) ∧
  (∀ (s : State) (b : BitVec 16), s.InputWritten → 2 ≤ b.toNat → b.toNat ≤ 94 →
    (encoded s.cfg.alpha b.toNat s.input).length ≤ s.cfg.outputLimit →
    exec (.enc b) s = .next { s with
      acc := 0, obuf := cellsFrom 0 (encoded s.cfg.alpha b.toNat s.input),
      olen := BitVec.ofNat 32 (encoded s.cfg.alpha b.toNat s.input).length,
      err := .ok, errchar := 0, errpos := 0, done := true, cmdr := none }) ∧
  (∀ b : BitVec 16, encode (.enc b) = BitVec.ofNat 32 (0x10000000 + b.toNat))

/-- R156: DEC with a base outside 2..94 completes with InvalidBase, no output and ACC unchanged; with an element that is
none of the first `base` symbols it reports the lowest-indexed one, leaves no output and ACC = 0; otherwise it writes one
zero byte per leading zero symbol and the bytes of the value, sets OLEN and leaves ACC = 0; for every input the
host has written (93_implementation_defined.md U1) and every output that fits. -/
def Obligations.DecDecodesOrReportsFirstBad : Prop :=
  (∀ (s : State) (b : BitVec 16), b.toNat < 2 ∨ 94 < b.toNat → exec (.dec b) s =
    .next { s with
      obuf := [], olen := 0, err := .invalidBase, errchar := 0, errpos := 0, done := true, cmdr := none }) ∧
  (∀ (s : State) (b : BitVec 16) (k : Nat) (c : Byte), s.InputWritten → 2 ≤ b.toNat → b.toNat ≤ 94 →
    s.input[k]? = some c → c ∉ s.cfg.alpha.take b.toNat →
    (∀ j < k, ∀ x ∈ s.input[j]?, x ∈ s.cfg.alpha.take b.toNat) →
    exec (.dec b) s = .next { s with
      acc := 0, obuf := [], olen := 0, err := .invalidCharacter, errchar := c, errpos := BitVec.ofNat 32 k,
      done := true, cmdr := none }) ∧
  (∀ (s : State) (b : BitVec 16), s.InputWritten → 2 ≤ b.toNat → b.toNat ≤ 94 →
    (∀ c ∈ s.input, c ∈ s.cfg.alpha.take b.toNat) →
    (decoded s.cfg.alpha b.toNat s.input).length ≤ s.cfg.outputLimit →
    exec (.dec b) s = .next { s with
      acc := 0, obuf := cellsFrom 0 (decoded s.cfg.alpha b.toNat s.input),
      olen := BitVec.ofNat 32 (decoded s.cfg.alpha b.toNat s.input).length,
      err := .ok, errchar := 0, errpos := 0, done := true, cmdr := none }) ∧
  (∀ b : BitVec 16, encode (.dec b) = BitVec.ofNat 32 (0x20000000 + b.toNat))

/-- R143 and R159: with no input, ENC and DEC of a legal base complete with no output, and of an illegal base with
InvalidBase. -/
def Obligations.EmptyInputGivesEmptyOutput : Prop :=
  ∀ (s : State) (b : BitVec 16) (i : Instr), s.ilen = 0 → (i = .enc b ∨ i = .dec b) →
    (2 ≤ b.toNat → b.toNat ≤ 94 → exec i s = .next { s with
      acc := 0, obuf := [], olen := 0, err := .ok, errchar := 0, errpos := 0, done := true, cmdr := none }) ∧
    (b.toNat < 2 ∨ 94 < b.toNat → exec i s = .next { s with
      obuf := [], olen := 0, err := .invalidBase, errchar := 0, errpos := 0, done := true, cmdr := none })

/-- The input of a command is the cells 0 to ILEN − 1 of IBUF in index order, a cell the host has written being what it
wrote; no cell at ILEN or above is part of it. -/
def Obligations.InputIsTheCellsBelowIlen : Prop :=
  ∀ (s : State) (k : Nat),
    (k < s.ilen.toNat → ∀ v, s.ibuf.read k = some v → s.input[k]? = some v) ∧
    (s.ilen.toNat ≤ k → s.input[k]? = none) ∧
    (k < s.ilen.toNat → s.ibuf.read k = none → s.input[k]? = some (Config.unwrittenIbuf s.epoch k))

/-! ## Leading zeros, lengths and the round trip (41_encoder.md, 42_decoder.md) -/

/-- Decoding what ENC wrote, with the same base and alphabet, gives the original input back, for every input and every
legal base (42_decoder.md section 3, the round trip). -/
def Obligations.DecOfEncRestoresInput : Prop :=
  ∀ (s t : State) (b : BitVec 16), s.cfg.AlphabetOk → 2 ≤ b.toNat → b.toNat ≤ 94 → exec (.enc b) s = .next t →
    ∃ u, exec (.dec b) { t with ibuf := t.obuf, ilen := t.olen } = .next u ∧ u.err = .ok ∧
      u.output = s.input.map some

/-- Encoding what DEC wrote gives the original string back, for every string of symbols of the base that fits a buffer
(42_decoder.md section 3, the converse of the round trip). -/
def Obligations.EncOfDecRestoresString : Prop :=
  ∀ (s t : State) (b : BitVec 16), s.cfg.AlphabetOk → s.ilen.toNat ≤ s.cfg.outputLimit →
    2 ≤ b.toNat → b.toNat ≤ 94 → exec (.dec b) s = .next t → t.err = .ok →
    ∃ u, exec (.enc b) { t with ibuf := t.obuf, ilen := t.olen } = .next u ∧ u.err = .ok ∧
      u.output = s.input.map some

/-- An input of zero bytes only encodes to as many zero symbols and nothing else, and a string of zero symbols only
decodes to as many zero bytes (41_encoder.md and 42_decoder.md section 3, the consequences of the convention). -/
def Obligations.OnlyZerosConvertOneForOne : Prop :=
  (∀ (s t : State) (b : BitVec 16), 2 ≤ b.toNat → b.toNat ≤ 94 → (∀ x ∈ s.input, x = 0) →
    exec (.enc b) s = .next t →
    t.olen = s.ilen ∧ t.output = List.replicate s.ilen.toNat (some (s.cfg.alpha.getD 0 0))) ∧
  (∀ (s t : State) (b : BitVec 16), s.cfg.AlphabetOk → 2 ≤ b.toNat → b.toNat ≤ 94 →
    (∀ x ∈ s.input, x = s.cfg.alpha.getD 0 0) → exec (.dec b) s = .next t →
    t.err = .ok ∧ t.olen = s.ilen ∧ t.output = List.replicate s.ilen.toNat (some 0))

/-- The length of ENC's output: z zero symbols and D digits, D the number of digits of the value of the other bytes;
between ILEN and 8·ILEN; and the symbol after the z zero symbols is not the zero symbol (41_encoder.md section 3, output
length). -/
def Obligations.EncOutputLength : Prop :=
  ∀ (s t : State) (b : BitVec 16), s.cfg.AlphabetOk → 2 ≤ b.toNat → b.toNat ≤ 94 → exec (.enc b) s = .next t →
    ∃ D : Nat, t.olen.toNat = leading 0 s.input + D ∧
      (positional 256 (s.input.map (·.toNat)) = 0 → D = 0) ∧
      (positional 256 (s.input.map (·.toNat)) ≠ 0 → 0 < D ∧
        b.toNat ^ (D - 1) ≤ positional 256 (s.input.map (·.toNat)) ∧
        positional 256 (s.input.map (·.toNat)) < b.toNat ^ D) ∧
      s.ilen.toNat ≤ t.olen.toNat ∧ t.olen.toNat ≤ 8 * s.ilen.toNat ∧
      (0 < D → t.obuf.read (leading 0 s.input) ≠ some (s.cfg.alpha.getD 0 0))

/-- A decode never produces more bytes than it had characters, and the byte after the leading zero bytes is not zero
(42_decoder.md section 3, output length). -/
def Obligations.DecOutputNoLongerThanInput : Prop :=
  ∀ (s t : State) (b : BitVec 16), s.cfg.AlphabetOk → 2 ≤ b.toNat → b.toNat ≤ 94 → exec (.dec b) s = .next t →
    t.err = .ok →
    t.olen.toNat ≤ s.ilen.toNat ∧
      (leading (s.cfg.alpha.getD 0 0) s.input < t.olen.toNat →
        t.obuf.read (leading (s.cfg.alpha.getD 0 0) s.input) ≠ some 0)

/-- Every element that ENC writes is one of the first `base` symbols (41_encoder.md section 3, properties of the
output). -/
def Obligations.EncWritesOnlySymbolsOfTheBase : Prop :=
  ∀ (s t : State) (b : BitVec 16) (k : Nat) (c : Byte), s.cfg.AlphabetOk → 2 ≤ b.toNat → b.toNat ≤ 94 →
    exec (.enc b) s = .next t → t.obuf.read k = some c → c ∈ s.cfg.alpha.take b.toNat

/-- For the same input a smaller base never gives a shorter string (41_encoder.md section 3, cross-base consistency;
90_conflicts.md C2). -/
def Obligations.SmallerBaseNeverShorter : Prop :=
  ∀ (s t u : State) (b c : BitVec 16), 2 ≤ b.toNat → b.toNat ≤ c.toNat → c.toNat ≤ 94 →
    exec (.enc b) s = .next t → exec (.enc c) s = .next u → u.olen.toNat ≤ t.olen.toNat

/-! ## Big-integer laws (43_bigint.md) -/

/-- The conversions are inverse to each other: digits and value, bytes and value, padded or not (43_bigint.md
section 3, the inverse laws). -/
def Obligations.ConversionsAreInverse : Prop :=
  (∀ n v : Nat, (2 ≤ n ∧ n ≤ 94) ∨ n = 256 → fromDigits n (digitsOf n v) = v) ∧
  (∀ (n : Nat) (ds : List Nat), (2 ≤ n ∧ n ≤ 94) ∨ n = 256 → (∀ d ∈ ds, d < n) → (∀ d ∈ ds.head?, d ≠ 0) →
    digitsOf n (fromDigits n ds) = ds) ∧
  (∀ k v : Nat, fromBase256 (List.replicate k 0 ++ toBase256 v) = v) ∧
  (∀ y : List Byte, List.replicate (y.length - (toBase256 (fromBase256 y)).length) 0 ++ toBase256 (fromBase256 y) = y) ∧
  (∀ y : List Byte, (∀ x ∈ y.head?, x ≠ 0) → toBase256 (fromBase256 y) = y)

/-- LDB and then STB with the input's length as minimum give the input back (43_bigint.md section 3, the last inverse
law). -/
def Obligations.StbAfterLdbRestoresInput : Prop :=
  ∀ (s t : State) (m : BitVec 16), s.ilen.toNat = m.toNat → m.toNat ≤ s.cfg.outputLimit → exec .ldb s = .next t →
    ∃ u, exec (.stb m) t = .next u ∧ u.err = .ok ∧ u.output = s.input.map some

/-- LDD and then STD with the same base give digits without a leading zero back (43_bigint.md section 3, the inverse
laws). -/
def Obligations.StdAfterLddRestoresDigits : Prop :=
  ∀ (s t : State) (n : BitVec 16), s.ilen.toNat ≤ s.cfg.outputLimit → (∀ d ∈ s.input.head?, d ≠ 0) →
    exec (.ldd n) s = .next t → t.err = .ok →
    ∃ u, exec (.std n) t = .next u ∧ u.err = .ok ∧ u.output = s.input.map some

/-- The multiply-add over limbs of any width refines MULADD's arithmetic and keeps the vector normalised; from width 8
on the last carry is one limb (43_bigint.md section 6, from general knowledge: log 4). -/
def Obligations.LimbMuladdRefinesMuladd : Prop :=
  ∀ (width m a : Nat) (l : List Nat), 1 ≤ width → 2 ≤ m → m ≤ 256 → a ≤ 255 → limbNormal width l = true →
    limbValue width (muladdLimbs width m a l) = limbValue width l * m + a ∧
    limbNormal width (muladdLimbs width m a l) = true ∧
    (8 ≤ width → (muladdLimbs width m a l).length ≤ l.length + 1)

/-- The divmod over limbs of any width refines DIVMOD's arithmetic and gives a normalised vector (43_bigint.md
section 6, from general knowledge: log 4). -/
def Obligations.LimbDivmodRefinesDivmod : Prop :=
  ∀ (width d : Nat) (l : List Nat), 1 ≤ width → 2 ≤ d → d ≤ 256 → limbNormal width l = true →
    limbValue width (divmodLimbs width d l).1 = limbValue width l / d ∧
    (divmodLimbs width d l).2 = limbValue width l % d ∧
    limbNormal width (divmodLimbs width d l).1 = true

/-! ## The alphabet (40_alphabet.md) -/

/-- R122: the reference alphabet has the closed form the rule gives, and satisfies the invariants of R121. -/
def Obligations.ReferenceAlphabetIsAllowed : Prop :=
  referenceConfig.AlphabetOk ∧
  (∀ d < 94, referenceConfig.alpha[d]? = some (BitVec.ofNat 8 (
    if d ≤ 9 then 0x30 + d else if d ≤ 35 then 0x61 + (d - 10) else if d ≤ 61 then 0x41 + (d - 36)
    else if d ≤ 76 then 0x21 + (d - 62) else if d ≤ 83 then 0x3A + (d - 77) else if d ≤ 89 then 0x5B + (d - 84)
    else 0x7B + (d - 90))))

/-- Laws of the lookups for every allowed alphabet: DLUT is the inverse table, `digit_for` undoes `symbol_for` and the
other way round, and a larger base never changes a digit (40_alphabet.md section 4, the laws a model should prove). -/
def Obligations.LookupsAreInverse : Prop :=
  ∀ cfg : Config, cfg.AlphabetOk →
    (∀ (c : Byte) (i : Nat), dlut cfg c = some i ↔ cfg.alpha[i]? = some c) ∧
    (∀ b d : Nat, b ≤ 94 → d < b → digitFor cfg (symbolFor cfg d) b = some d) ∧
    (∀ (b i : Nat) (c : Byte), digitFor cfg c b = some i → symbolFor cfg i = c) ∧
    (∀ (b i : Nat) (c : Byte), digitFor cfg c b = some i ↔ dlut cfg c = some i ∧ i < b) ∧
    (∀ (b b' i : Nat) (c : Byte), b ≤ b' → digitFor cfg c b = some i → digitFor cfg c b' = some i)

/-- SYM of a digit and then DIG of the symbol in RES gives the digit back, for every allowed alphabet and every base
above the digit (40_alphabet.md section 4; 95_test_vectors.md V-A25). -/
def Obligations.DigOfSymRestoresDigit : Prop :=
  ∀ (s t : State) (d : BitVec 9) (b : BitVec 16), s.cfg.AlphabetOk → b.toNat ≤ 94 → 2 ≤ b.toNat →
    d.toNat < b.toNat → exec (.sym d) s = .next t →
    ∃ u, exec (.dig t.res b) t = .next u ∧ u.err = .ok ∧ u.res.toNat = d.toNat

/-- R131: the alphabet an engine is configured with is there from reset on, and no step, a reset in it included, changes
it or any other parameter. -/
def Obligations.NoStepChangesTheAlphabet : Prop :=
  (∀ cfg : Config, (State.resetWith cfg).cfg = cfg) ∧ ∀ s t : State, step s = .next t → t.cfg = s.cfg

/-! ## Sequencing and completion (44_control.md) -/

/-- R211: a word written to CMD while BUSY = 0 is latched, whatever it is, DONE and ERR are cleared and nothing else
changes; while BUSY = 1 a write to CMD is no acceptance. -/
def Obligations.AcceptanceLatchesTheWord : Prop :=
  (∀ (w : Word) (s : State), s.cmdr = none →
    hostAccess (.writeReg 0 w) s = .next { s with cmdr := some w, done := false, err := .ok }) ∧
  (∀ (w v : Word) (s : State), s.cmdr = some v → hostAccess (.writeReg 0 w) s = .refused .busyAccess)

/-- A step runs the decoded command: with a word in CMDR and no host turn to come first, the step is exec of the command
that the word decodes to, and an illegal word completes with IllegalCommand; with a host turn first, the step takes that
turn out of the list and does it; with nothing to do the state stays (44_control.md section 1; log 11, log 13). -/
def Obligations.StepRunsDecodedCommand : Prop :=
  (∀ (s : State) (w : Word) (i : Instr), s.cmdr = some w → s.engineTurn = true → decode w = .ok i →
    step s = exec i s) ∧
  (∀ (s : State) (w : Word) (e : Illegal), s.cmdr = some w → s.engineTurn = true → decode w = .error e →
    step s = .next { s with err := .illegalCommand, errchar := 0, errpos := 0, done := true, cmdr := none }) ∧
  (∀ (s : State) (turn : HostTurn) (rest : List HostTurn), s.engineTurn = false → s.host = turn :: rest →
    step s = hostAction turn.action { s with host := rest }) ∧
  (∀ s : State, s.cmdr = none → s.host = [] → step s = .next s) ∧
  (∀ (s : State) (w : Word), step (s.withFetchWord 32 w.toNat) = runWord w (s.withFetchWord 32 w.toNat))

/-- R212: whatever a command does, when it completes DONE = 1 and CMDR is empty, ERR is its code, and ERRCHAR and ERRPOS
are 0 unless the code is 2 or 3; and a command never stops by a fault. -/
def Obligations.CompletionSetsTheCompletionRegisters : Prop :=
  ∀ (i : Instr) (s : State),
    (∀ t, exec i s = .next t → t.done = true ∧ t.cmdr = none ∧
      (t.err ≠ .invalidCharacter → t.err ≠ .invalidDigit → t.errchar = 0 ∧ t.errpos = 0)) ∧
    (∀ f, exec i s ≠ .fault f)

/-- R69: no command writes IBUF or ILEN, every cell of IBUF reads as before; nor does one change the configuration or
the host's side. -/
def Obligations.CommandsLeaveInputAlone : Prop :=
  ∀ (i : Instr) (s t : State), exec i s = .next t →
    (∀ k, t.ibuf.read k = s.ibuf.read k) ∧ t.ibuf = s.ibuf ∧ t.ilen = s.ilen ∧ t.input = s.input ∧
      t.cfg = s.cfg ∧ t.host = s.host ∧ t.reads = s.reads ∧ t.epoch = s.epoch ∧ t.draws = s.draws

/-- R23: RES is written only by DIVMOD (the remainder), SYM (the symbol) and DIG (the digit value, at most 93), and only
when they complete with ERR = 0; the host reads it zero-extended as register 4. -/
def Obligations.ResWrittenOnlyByThree : Prop :=
  (∀ (i : Instr) (s t : State), exec i s = .next t → t.res ≠ s.res →
    t.err = .ok ∧ (i.mnemonic = .divmod ∨ i.mnemonic = .sym ∨ i.mnemonic = .dig)) ∧
  (∀ (i : Instr) (s t : State), exec i s = .next t → t.err = .ok →
    (∀ d, i = .divmod d → t.res.toNat = s.acc % d.toNat) ∧
    (∀ d, i = .sym d → t.res = s.cfg.alpha.getD d.toNat 0) ∧
    (∀ c b, i = .dig c b → s.cfg.alpha[t.res.toNat]? = some c ∧ t.res.toNat ≤ 93)) ∧
  (∀ s : State, s.cmdr = none →
    hostAccess (.readReg 4) s = .next { s with reads := s.reads ++ [.reg 4 (s.res.setWidth 32)] })

/-- R33: only ENC, DEC, STB and STD write OLEN and OBUF: on success OLEN is the output's length, cells 0 to OLEN − 1 hold
the output from index 0 (of ENC and DEC, for an input the host has written: 93_implementation_defined.md U1) and no other
cell holds a value; on an error OLEN is 0 and no cell holds a value; every other command leaves every cell of OBUF as it
was; a host write of OLEN is ignored. -/
def Obligations.OutputWrittenOnlyByFour : Prop :=
  (∀ (i : Instr) (s t : State), exec i s = .next t →
    i.mnemonic ≠ .enc → i.mnemonic ≠ .dec → i.mnemonic ≠ .stb → i.mnemonic ≠ .std →
    t.olen = s.olen ∧ ∀ k, t.obuf.read k = s.obuf.read k) ∧
  (∀ (i : Instr) (s t : State), exec i s = .next t →
    i.mnemonic = .enc ∨ i.mnemonic = .dec ∨ i.mnemonic = .stb ∨ i.mnemonic = .std →
    (t.err = .ok → t.olen.toNat = outputLength i s ∧ ∀ k, (t.obuf.read k).isSome = decide (k < t.olen.toNat)) ∧
    (t.err ≠ .ok → t.olen = 0 ∧ ∀ k, t.obuf.read k = none)) ∧
  (∀ (i : Instr) (s t : State) (k : Nat), exec i s = .next t → t.err = .ok →
    (∀ b, i = .enc b → s.InputWritten → t.obuf.read k = (encoded s.cfg.alpha b.toNat s.input)[k]?) ∧
    (∀ b, i = .dec b → s.InputWritten → t.obuf.read k = (decoded s.cfg.alpha b.toNat s.input)[k]?) ∧
    (∀ m, i = .stb m → t.obuf.read k = (List.replicate (m.toNat - (bigEndian 256 s.acc).length) 0 ++
      (bigEndian 256 s.acc).map (BitVec.ofNat 8))[k]?) ∧
    (∀ n, i = .std n → t.obuf.read k = ((bigEndian n.toNat s.acc).map (BitVec.ofNat 8))[k]?)) ∧
  (∀ (v : Word) (s : State), s.cmdr = none → hostAccess (.writeReg 3 v) s = .next s)

/-- Every command is a function of its word, ACC, the input, ILEN and the configuration: two states that agree on these,
and on what the command leaves alone, give the same results; ENC and DEC do not read ACC either (00_scope.md
section 5). The last clause is the model's choice (log 5, 93_implementation_defined.md U1): on an input with cells never
written a command does what it does on the same input with all of them written. -/
def Obligations.CommandsDependOnlyOnTheirOperands : Prop :=
  (∀ (i : Instr) (s t s' : State), s.cfg = t.cfg → s.ilen = t.ilen → s.input = t.input → s.acc = t.acc →
    s.res = t.res → s.obuf = t.obuf → s.olen = t.olen → exec i s = .next s' →
    ∃ t', exec i t = .next t' ∧ t'.acc = s'.acc ∧ t'.res = s'.res ∧ t'.obuf = s'.obuf ∧ t'.olen = s'.olen ∧
      t'.err = s'.err ∧ t'.errchar = s'.errchar ∧ t'.errpos = s'.errpos) ∧
  (∀ (b : BitVec 16) (i : Instr) (s t s' : State), (i = .enc b ∨ i = .dec b) → s.cfg = t.cfg → s.ilen = t.ilen →
    s.input = t.input → exec i s = .next s' →
    ∃ t', exec i t = .next t' ∧ t'.obuf = s'.obuf ∧ t'.olen = s'.olen ∧ t'.err = s'.err ∧
      t'.errchar = s'.errchar ∧ t'.errpos = s'.errpos ∧ (s'.err ≠ .invalidBase → t'.acc = s'.acc)) ∧
  (∀ (i : Instr) (s t : State), exec i { s with ibuf := cellsFrom 0 s.input } = .next t →
    exec i s = .next { t with ibuf := s.ibuf })

/-- An accepted command completes: after any number of STATUS reads that the host makes first, the engine's step comes
and leaves the engine idle with DONE = 1, provided the output fits (70_reset_and_hazards.md section 4, progress). That
host turns marked to come first are taken before the engine's step, and waiting ones after it, is the model's choice
(log 11), and so is that a command completes on an input with cells never written (log 5). -/
def Obligations.AcceptedCommandCompletes : Prop :=
  ∀ (s : State) (w : Word) (n : Nat) (rest : List HostTurn), s.cmdr = some w →
    s.host = List.replicate n ⟨false, .access (.readReg 1)⟩ ++ rest → (∀ turn ∈ rest.head?, turn.waits = true) →
    (∀ i, decode w = .ok i → OutputFits i s) →
    ∃ t, Sys2Proof.core.run (n + 1) s = .next t ∧ t.cmdr = none ∧ t.done = true ∧ t.host = rest

/-! ## Errors (60_exceptions.md) -/

/-- Which command completes with which code, exactly: a command with a legal word completes with a code from some state
if and only if the table gives the command that code (60_exceptions.md section 1, the table). -/
def Obligations.CompletionCodesByCommand : Prop :=
  ∀ (m : Mnemonic) (c : CompletionCode),
    (∃ (i : Instr) (s t : State), i.wf = true ∧ i.mnemonic = m ∧ exec i s = .next t ∧ t.err = c) ↔
      mayComplete m c = true

/-- R231: ENC, DEC, LDD, STD and DIG complete with InvalidBase exactly when the base field, read unsigned, is outside
2..94, and no other command does; nothing but the code is recorded. -/
def Obligations.InvalidBaseExactlyOutsideTheRange : Prop :=
  ∀ (i : Instr) (s t : State), exec i s = .next t →
    ((t.err = .invalidBase ↔ ∃ b : BitVec 16, (b.toNat < 2 ∨ 94 < b.toNat) ∧
      (i = .enc b ∨ i = .dec b ∨ i = .ldd b ∨ i = .std b ∨ ∃ c, i = .dig c b)) ∧
    (t.err = .invalidBase → t.errchar = 0 ∧ t.errpos = 0 ∧ t.acc = s.acc ∧ t.res = s.res))

/-- R237: when ENC, DEC or STD completes with a code other than 0, OLEN is 0 and no OBUF cell holds a value; STB cannot
fail; an illegal word leaves OLEN and OBUF unchanged; DIG and LDD never change them. -/
def Obligations.FailureLeavesNoPartialOutput : Prop :=
  (∀ (i : Instr) (s t : State), i.mnemonic = .enc ∨ i.mnemonic = .dec ∨ i.mnemonic = .std →
    exec i s = .next t → t.err ≠ .ok → t.olen = 0 ∧ ∀ k, t.obuf.read k = none) ∧
  (∀ (m : BitVec 16) (s t : State), exec (.stb m) s = .next t → t.err = .ok) ∧
  (∀ (w : Word) (e : Illegal) (s t : State), decode w = .error e → runWord w s = .next t →
    t.err = .illegalCommand ∧ t.olen = s.olen ∧ t.obuf = s.obuf) ∧
  (∀ (i : Instr) (s t : State), i.mnemonic = .dig ∨ i.mnemonic = .ldd → exec i s = .next t →
    t.olen = s.olen ∧ t.obuf = s.obuf)

/-- R238: InvalidBase leaves ACC unchanged, InvalidCharacter in DEC and InvalidDigit in LDD leave ACC = 0,
InvalidCharacter in DIG and an illegal word leave ACC unchanged, and RES is unchanged by every failing command. -/
def Obligations.AccAndResAfterFailure : Prop :=
  (∀ (i : Instr) (s t : State), exec i s = .next t → t.err = .invalidBase → t.acc = s.acc) ∧
  (∀ (b : BitVec 16) (s t : State), exec (.dec b) s = .next t → t.err = .invalidCharacter → t.acc = 0) ∧
  (∀ (n : BitVec 16) (s t : State), exec (.ldd n) s = .next t → t.err = .invalidDigit → t.acc = 0) ∧
  (∀ (c : BitVec 8) (b : BitVec 16) (s t : State), exec (.dig c b) s = .next t → t.err = .invalidCharacter →
    t.acc = s.acc) ∧
  (∀ (w : Word) (s t : State), runWord w s = .next t → t.err = .illegalCommand → t.acc = s.acc) ∧
  (∀ (w : Word) (s t : State), runWord w s = .next t → t.err ≠ .ok → t.res = s.res)

/-- A command stops only where its output is longer than the buffer or the length register allows, and then by that
refusal; in every other case it answers a next state (20_memory.md section 4; 93_implementation_defined.md U4). That a command
also runs on an input with cells never written is the model's choice between the two that
93_implementation_defined.md U1 gives (log 5). -/
def Obligations.CommandsStopOnlyForTooLongOutput : Prop :=
  ∀ (i : Instr) (s : State),
    (OutputFits i s → ∃ t, exec i s = .next t) ∧ (¬ OutputFits i s → exec i s = .refused .outputTooLong)

/-- Within the bounds of U4 no command is refused: ENC, and STD after LDB, when 8·ILEN fits, DEC when ILEN fits, and STB
after LDB when ILEN and `min_length` fit (93_implementation_defined.md U4). That none is refused for an input cell never
written either is the model's choice (log 5, 93_implementation_defined.md U1). -/
def Obligations.BoundedInputIsNeverRefused : Prop :=
  (∀ (s : State) (b : BitVec 16), 8 * s.ilen.toNat ≤ s.cfg.outputLimit → ∃ t, exec (.enc b) s = .next t) ∧
  (∀ (s : State) (b : BitVec 16), s.ilen.toNat ≤ s.cfg.outputLimit → ∃ t, exec (.dec b) s = .next t) ∧
  (∀ (s t : State) (n : BitVec 16), 8 * s.ilen.toNat ≤ s.cfg.outputLimit → exec .ldb s = .next t →
    ∃ u, exec (.std n) t = .next u) ∧
  (∀ (s t : State) (m : BitVec 16), s.ilen.toNat ≤ s.cfg.outputLimit → m.toNat ≤ s.cfg.outputLimit →
    exec .ldb s = .next t → ∃ u, exec (.stb m) t = .next u)

/-! ## The host's side (10_state.md, 44_control.md sections 4 and 5) -/

/-- R29: a read of STATUS gives BUSY in bit 0, 1 while a command is accepted and not complete, DONE in bit 1, 1 after a
completion until the next acceptance, zeros in the reserved bits, and while BUSY = 0 Z in bit 2 and ERR in bits 7:4, the
five codes numbered 0 to 4 and no other; after reset it reads 0x00000004. -/
def Obligations.StatusWordHasItsFields : Prop :=
  (∀ s : State, s.cmdr = none → ∃ w : Word,
    hostAccess (.readReg 1) s = .next { s with reads := s.reads ++ [.reg 1 w] } ∧
    w.getLsbD 0 = false ∧ w.getLsbD 1 = s.done ∧ w.getLsbD 2 = decide (s.acc = 0) ∧ w.getLsbD 3 = false ∧
    w.extractLsb' 4 4 = s.err.bits ∧ w >>> 8 = 0#32) ∧
  (∀ (s : State) (v : Word), s.cmdr = some v → ∃ (w : Word) (d : Nat),
    hostAccess (.readReg 1) s = .next { s with reads := s.reads ++ [.reg 1 w], draws := d } ∧
    w.getLsbD 0 = true ∧ w.getLsbD 1 = s.done ∧ w.getLsbD 3 = false ∧ w >>> 8 = 0#32) ∧
  (∀ (w : Word) (s t : State), runWord w s = .next t → t.done = true ∧ t.cmdr = none) ∧
  (∀ (w : Word) (s t : State), s.cmdr = none → hostAccess (.writeReg 0 w) s = .next t →
    t.done = false ∧ t.cmdr = some w) ∧
  (CompletionCode.ok.bits = 0#4 ∧ CompletionCode.invalidBase.bits = 1#4 ∧ CompletionCode.invalidCharacter.bits = 2#4 ∧
    CompletionCode.invalidDigit.bits = 3#4 ∧ CompletionCode.illegalCommand.bits = 4#4) ∧
  (∀ c : CompletionCode, c.bits.toNat ≤ 4) ∧
  hostAccess (.readReg 1) State.reset = .next { State.reset with reads := [.reg 1 0x00000004#32] }

/-- R276: while BUSY = 1 a read of STATUS shows BUSY = 1 and DONE as it is, whatever its Z and ERR bits are, and changes
nothing of the engine; every other access of the host, and OUT and MOVE, is refused. -/
def Obligations.OnlyStatusIsReadableWhileBusy : Prop :=
  ∀ (s : State) (w : Word), s.cmdr = some w →
    (∃ (v : Word) (d : Nat), hostAccess (.readReg 1) s =
        .next { s with reads := s.reads ++ [.reg 1 v], draws := d } ∧
      v.getLsbD 0 = true ∧ v.getLsbD 1 = s.done ∧ v.getLsbD 3 = false ∧ v >>> 8 = 0#32) ∧
    (∀ a : HostAccess, a ≠ .readReg 1 →
      (∀ addr bytes, a = .readAddr addr bytes → registerAt s.cfg addr bytes ≠ some 1) →
      hostAccess a s = .refused .busyAccess) ∧
    hostAction .out s = .refused .busyAccess ∧ hostAction .move s = .refused .busyAccess

/-- R217: a register read returns the register's value zero-extended, 0 for CMD, and changes no state; STATUS may be
read at any time, registers 2 to 6 only while BUSY = 0. -/
def Obligations.RegisterReadsReturnTheRegisters : Prop :=
  (∀ s : State, s.cmdr = none →
    hostAccess (.readReg 0) s = .next { s with reads := s.reads ++ [.reg 0 0#32] } ∧
    hostAccess (.readReg 1) s =
      .next { s with reads := s.reads ++ [.reg 1 (statusOf false s.done (decide (s.acc = 0)) s.err.bits)] } ∧
    hostAccess (.readReg 2) s = .next { s with reads := s.reads ++ [.reg 2 s.ilen] } ∧
    hostAccess (.readReg 3) s = .next { s with reads := s.reads ++ [.reg 3 s.olen] } ∧
    hostAccess (.readReg 4) s = .next { s with reads := s.reads ++ [.reg 4 (s.res.setWidth 32)] } ∧
    hostAccess (.readReg 5) s = .next { s with reads := s.reads ++ [.reg 5 (s.errchar.setWidth 32)] } ∧
    hostAccess (.readReg 6) s = .next { s with reads := s.reads ++ [.reg 6 s.errpos] }) ∧
  (∀ s : State, ∃ (v : Word) (d : Nat),
    hostAccess (.readReg 1) s = .next { s with reads := s.reads ++ [.reg 1 v], draws := d }) ∧
  (∀ (s : State) (w : Word) (n : Nat), s.cmdr = some w → 2 ≤ n → n ≤ 6 →
    hostAccess (.readReg n) s = .refused .busyAccess)

/-- R218: a write to CMD while BUSY = 0 is acceptance, a write to ILEN of at most CAP stores the value, a write to a
read-only register is ignored; any write while BUSY = 1 is refused. -/
def Obligations.RegisterWritesByNumber : Prop :=
  (∀ (s : State) (v : Word), s.cmdr = none →
    hostAccess (.writeReg 0 v) s = .next { s with cmdr := some v, done := false, err := .ok } ∧
    ((∀ c ∈ s.cfg.cap, v.toNat ≤ c) → hostAccess (.writeReg 2 v) s = .next { s with ilen := v }) ∧
    (∀ n, n = 1 ∨ n = 3 ∨ n = 4 ∨ n = 5 ∨ n = 6 → hostAccess (.writeReg n v) s = .next s)) ∧
  (∀ (s : State) (w v : Word) (n : Nat), s.cmdr = some w → hostAccess (.writeReg n v) s = .refused .busyAccess)

/-- While BUSY = 0 an access to a register number of 7 or more stops with a fault and changes nothing, and a write to
ILEN of more than CAP is refused: there is no such register and no such cell (93_implementation_defined.md U3 and U8;
that the first is a fault and the second a refusal is the model's choice, log 10). -/
def Obligations.NoSuchRegisterAndNoSuchLength : Prop :=
  ∀ (s : State) (v : Word), s.cmdr = none →
    (∀ n, 7 ≤ n → hostAccess (.readReg n) s = .fault .noSuchRegister ∧
      hostAccess (.writeReg n v) s = .fault .noSuchRegister) ∧
    ((∃ c ∈ s.cfg.cap, c < v.toNat) → hostAccess (.writeReg 2 v) s = .refused .lengthAboveCap)

/-- Buffer accesses while BUSY = 0, at an index below CAP: a write to IBUF stores that one cell and leaves ILEN; a read of
IBUF gives what was last written, and of a cell not written since reset a free value (log 5); a read of OBUF gives the
cell below OLEN, and above it a free value (log 6); a write to OBUF is ignored. At an index of CAP or more each faults
(44_control.md section 4; 93_implementation_defined.md U1, U2, U3). -/
def Obligations.BufferAccessesMoveOneCell : Prop :=
  ∀ (s : State) (i : Nat) (v : Byte), s.cmdr = none →
    ((∀ c ∈ s.cfg.cap, i < c) →
      (∃ m : Memory, hostAccess (.writeIbuf i v) s = .next { s with ibuf := m } ∧ m.read i = some v ∧
        (∀ j, j ≠ i → m.read j = s.ibuf.read j) ∧ (s.ibuf.wf = true → m.wf = true)) ∧
      (∀ u, s.ibuf.read i = some u →
        hostAccess (.readIbuf i) s = .next { s with reads := s.reads ++ [.ibuf i u] }) ∧
      (s.ibuf.read i = none → hostAccess (.readIbuf i) s =
        .next { s with reads := s.reads ++ [.ibuf i (Config.unwrittenIbuf s.epoch i)] }) ∧
      (∀ u, i < s.olen.toNat → s.obuf.read i = some u →
        hostAccess (.readObuf i) s = .next { s with reads := s.reads ++ [.obuf i u] }) ∧
      (s.olen.toNat ≤ i → ∃ u, hostAccess (.readObuf i) s =
        .next { s with reads := s.reads ++ [.obuf i u], draws := s.draws + 1 }) ∧
      hostAccess (.writeObuf i v) s = .next s) ∧
    ((∃ c ∈ s.cfg.cap, c ≤ i) →
      hostAccess (.writeIbuf i v) s = .fault .noSuchCell ∧ hostAccess (.readIbuf i) s = .fault .noSuchCell ∧
      hostAccess (.readObuf i) s = .fault .noSuchCell ∧ hostAccess (.writeObuf i v) s = .fault .noSuchCell)

/-- If the engine is memory-mapped, an aligned access of 4 bytes at RCE_BASE + 4·n is the access to register n, and every
other access by address while BUSY = 0 is an access to no register; if it is not mapped, every one is (20_memory.md
sections 3 and 4; log 18). -/
def Obligations.BusAddressesNameTheRegisters : Prop :=
  (∀ (s : State) (base n : Nat) (v : Word), s.cfg.rceBase = some base → n ≤ 6 →
    hostAccess (.readAddr (base + 4 * n) 4) s = hostAccess (.readReg n) s ∧
    hostAccess (.writeAddr (base + 4 * n) 4 v) s = hostAccess (.writeReg n v) s) ∧
  (∀ (s : State) (addr bytes : Nat) (v : Word), s.cmdr = none →
    (¬ ∃ base n, s.cfg.rceBase = some base ∧ n ≤ 6 ∧ addr = base + 4 * n ∧ bytes = 4) →
    hostAccess (.readAddr addr bytes) s = .fault .noSuchRegister ∧
    hostAccess (.writeAddr addr bytes v) s = .fault .noSuchRegister)

/-- The host actions move whole sequences: IN makes the given elements the input, OUT reads OLEN and the output in order,
and MOVE makes the output the input, and they change nothing else of the engine (30_encoding.md section 5). -/
def Obligations.HostActionsMoveSequences : Prop :=
  (∀ (s : State) (es : List Byte), s.cmdr = none → es.length < 2 ^ 32 → (∀ c ∈ s.cfg.cap, es.length ≤ c) →
    ∃ m : Memory, hostAccesses (inputAccesses es) s =
        .next { s with ibuf := m, ilen := BitVec.ofNat 32 es.length } ∧
      (∀ k, m.read k = if k < es.length then es[k]? else s.ibuf.read k)) ∧
  (∀ (s : State) (out : List Byte), s.cmdr = none → s.obuf = cellsFrom 0 out → s.olen.toNat = out.length →
    (∀ c ∈ s.cfg.cap, out.length ≤ c) →
    hostAction .out s = .next { s with
      reads := s.reads ++ .reg 3 s.olen :: (List.range out.length).map (fun k => .obuf k (out.getD k 0)) } ∧
    (∃ (m : Memory) (t : State), hostAction .move s = .next t ∧ t.input = out ∧
      t = { s with
        ibuf := m, ilen := s.olen,
        reads := s.reads ++ .reg 3 s.olen :: (List.range out.length).map (fun k => .obuf k (out.getD k 0)) } ∧
      (∀ k, m.read k = if k < out.length then out[k]? else s.ibuf.read k)))

/-- The library's two calls as the host makes them: the input written by IN, the command by CMD, and the result read by
OUT once BUSY = 0. The run takes the IN turns, the CMD write, one engine step and the OUT turn; the host has then read
OLEN and the whole output, and nothing before or after it (44_control.md section 5, the protocol; log 11, log 19). -/
def Obligations.HostCallsReturnTheOutput : Prop :=
  ∀ (s : State) (x : List Byte) (b : BitVec 16) (rest : List HostTurn), s.cmdr = none → x.length < 2 ^ 32 →
    (∀ c ∈ s.cfg.cap, x.length ≤ c) → 2 ≤ b.toNat → b.toNat ≤ 94 →
    ((encoded s.cfg.alpha b.toNat x).length ≤ s.cfg.outputLimit →
      s.host = turnsIn x ++ turnCmd (.enc b) :: ⟨true, .out⟩ :: rest →
      ∃ t, Sys2Proof.core.run (x.length + 4) s = .next t ∧ t.host = rest ∧ t.cmdr = none ∧ t.err = .ok ∧
        t.olen.toNat = (encoded s.cfg.alpha b.toNat x).length ∧
        t.reads = s.reads ++ .reg 3 t.olen :: (List.range t.olen.toNat).map
          (fun k => .obuf k ((encoded s.cfg.alpha b.toNat x).getD k 0))) ∧
    ((∀ c ∈ x, c ∈ s.cfg.alpha.take b.toNat) → (decoded s.cfg.alpha b.toNat x).length ≤ s.cfg.outputLimit →
      s.host = turnsIn x ++ turnCmd (.dec b) :: ⟨true, .out⟩ :: rest →
      ∃ t, Sys2Proof.core.run (x.length + 4) s = .next t ∧ t.host = rest ∧ t.cmdr = none ∧ t.err = .ok ∧
        t.olen.toNat = (decoded s.cfg.alpha b.toNat x).length ∧
        t.reads = s.reads ++ .reg 3 t.olen :: (List.range t.olen.toNat).map
          (fun k => .obuf k ((decoded s.cfg.alpha b.toNat x).getD k 0)))

/-! ## Reset and the invariant (10_state.md section 8, 70_reset_and_hazards.md section 1) -/

/-- R42: the values after reset, at the start and whenever the reset input is applied, a command in progress being
abandoned without completing. -/
def Obligations.ResetStateValues : Prop :=
  ∀ (cfg : Config) (t : State),
    (t = State.resetWith cfg ∨ ∃ s : State, s.cfg = cfg ∧ hostAction .reset s = .next t) →
    t.cfg.alpha = cfg.alpha ∧ t.acc = 0 ∧ t.zero = true ∧ t.res = 0 ∧ t.ilen = 0 ∧ t.olen = 0 ∧
    (∀ k, t.ibuf.read k = none) ∧ (∀ k, t.obuf.read k = none) ∧ t.busy = false ∧ t.done = false ∧ t.err = .ok ∧
    t.errchar = 0 ∧ t.errpos = 0 ∧ t.cmdr = none

/-- R270 and R271: reset, at any time, a command in progress included, leaves every piece of the engine's state at its
reset value, ALPHA unchanged, STATUS = 0x00000004, and the engine accepts a command at once. (The four fields that are
the model's own are free in this statement.) -/
def Obligations.ResetInputGivesTheResetState : Prop :=
  ∀ s : State, ∃ (host : List HostTurn) (reads : List HostRead) (epoch draws : Nat),
    hostAction .reset s = .next { State.resetWith s.cfg with
      host := host, reads := reads, epoch := epoch, draws := draws } ∧
    (∀ t, hostAction .reset s = .next t → t.cmdr = none ∧ t.done = false ∧
      statusOf t.busy t.done t.zero t.err.bits = 0x00000004#32 ∧
      ∀ w : Word, ∃ u, hostAccess (.writeReg 0 w) t = .next u ∧ u.cmdr = some w)

/-- The state after reset meets the invariant, for every allowed instance of the parameters; State.reset is the one of
the reference instance, the model's choice (log 1, log 2). -/
def Obligations.ResetMeetsTheInvariant : Prop :=
  State.reset.Inv ∧ State.reset = State.resetWith referenceConfig ∧
  ∀ cfg : Config, cfg.Ok → (State.resetWith cfg).Inv

/-- Every step keeps the invariant: the buffers stay canonical and within CAP, OBUF holds exactly the cells below OLEN,
ILEN stays within CAP, ERRCHAR and ERRPOS are 0 after a command that recorded nothing, and a command in progress shows
DONE = 0 and ERR = 0. -/
def Obligations.StepKeepsTheInvariant : Prop :=
  ∀ s t : State, s.Inv → step s = .next t → t.Inv
end

