-- ==== Sys2Proof/Laws/Digits.lean ====
section
/-! SUPPORT. The conversions of 43_bigint.md against the library's digits: `remainders` is `Nat.digits` and `valueIn` is
`Nat.ofDigits` of the reversed sequence, so that the library's facts serve every proof about digits. -/

namespace Sys2Proof.Laws

open Sys2Proof Sys2Proof.Machine

/-- Any bound on the passes of at least the value gives the library's digits (43_bigint.md R189). -/
theorem remainders_eq_digits {d : Nat} (hd : 2 ≤ d) (fuel v : Nat) (h : v ≤ fuel) :
    remainders d fuel v = Nat.digits d v := by
  induction fuel generalizing v with
  | zero =>
    obtain rfl : v = 0 := by omega
    simp [remainders]
  | succ fuel ih =>
    rw [remainders]
    split
    · next h0 => simp [h0]
    · next h0 =>
      have hlt : v / d < v := Nat.div_lt_self (Nat.pos_of_ne_zero h0) hd
      rw [ih (v / d) (by omega), Nat.digits_def' hd (Nat.pos_of_ne_zero h0)]

/-- `to_digits_base_n` is the library's digits, most significant first. -/
theorem digitsOf_eq {d : Nat} (hd : 2 ≤ d) (v : Nat) : digitsOf d v = (Nat.digits d v).reverse := by
  rw [digitsOf, remainders_eq_digits hd v v (Nat.le_refl v)]

theorem foldl_eq_ofDigits (r : Nat) (s : List Nat) (v : Nat) :
    s.foldl (fun v d => v * r + d) v = Nat.ofDigits r s.reverse + r ^ s.length * v := by
  induction s generalizing v with
  | nil => simp
  | cons x s ih => simp [ih, Nat.ofDigits_append, pow_succ]; ring

/-- `val_r` is the library's value of the reversed sequence (00_scope.md R8). -/
theorem valueIn_eq (r : Nat) (s : List Nat) : valueIn r s = Nat.ofDigits r s.reverse := by
  simp [valueIn, foldl_eq_ofDigits]

@[simp] theorem valueIn_nil (r : Nat) : valueIn r [] = 0 := rfl

/-- The most significant element counts `r` to the number of elements after it (00_scope.md R8). -/
theorem valueIn_cons (r x : Nat) (s : List Nat) : valueIn r (x :: s) = x * r ^ s.length + valueIn r s := by
  simp [valueIn_eq, Nat.ofDigits_append]; ring

@[simp] theorem digitsOf_zero (d : Nat) : digitsOf d 0 = [] := rfl

/-- Every digit is below the radix (43_bigint.md R185). -/
theorem lt_of_mem_digitsOf {d v x : Nat} (hd : 2 ≤ d) (h : x ∈ digitsOf d v) : x < d := by
  rw [digitsOf_eq hd, List.mem_reverse] at h
  exact Nat.digits_lt_base hd h

/-- The elements after the leading `x`s: the sequence is those `x`s and the rest. -/
theorem replicate_leadingCount_append_drop (x : Nat) (s : List Nat) :
    List.replicate (leadingCount x s) x ++ s.drop (leadingCount x s) = s := by
  induction s with
  | nil => rfl
  | cons y s ih =>
    rw [leadingCount]
    split
    · next h => subst h; simpa [List.replicate_succ] using ih
    · rfl

theorem leadingCount_le_length (x : Nat) (s : List Nat) : leadingCount x s ≤ s.length := by
  induction s with
  | nil => simp [leadingCount]
  | cons y s ih =>
    rw [leadingCount]
    split
    · simpa using ih
    · exact Nat.zero_le _

/-- The element right after the leading `x`s, if any, is not `x`. -/
theorem head_drop_leadingCount_ne (x : Nat) (s : List Nat) : ∀ y ∈ (s.drop (leadingCount x s)).head?, y ≠ x := by
  induction s with
  | nil => simp [leadingCount]
  | cons y s ih =>
    rw [leadingCount]
    split
    · simpa using ih
    · next h => simpa using h

/-- The value of bytes as elements below 256. -/
theorem map_toNat_ofNat {l : List Nat} (h : ∀ x ∈ l, x < 256) : (l.map (BitVec.ofNat 8)).map (·.toNat) = l := by
  rw [List.map_map]
  conv_rhs => rw [← List.map_id l]
  exact List.map_congr_left fun x hx => by simp [Nat.mod_eq_of_lt (h x hx)]

end Sys2Proof.Laws
end

