-- ==== Sys2Proof/Laws/Lookup.lean ====
section
/-! SUPPORT. The alphabet's lookups and the scan of an input: when `digit_for` succeeds (40_alphabet.md R128, R129) and
what a scan answers (60_exceptions.md R242). -/

namespace Sys2Proof.Laws

open Sys2Proof Sys2Proof.Machine

theorem dlut_eq_some {cfg : Config} {c : Byte} {i : Nat} :
    dlut cfg c = some i ↔ c ∈ cfg.alpha ∧ cfg.alpha.idxOf c = i := by
  unfold dlut; split <;> simp_all

/-- `digit_for` gives the index of the code when it is in the alphabet and below the base (40_alphabet.md R128). -/
theorem digitFor_eq_some {cfg : Config} {c : Byte} {b i : Nat} :
    digitFor cfg c b = some i ↔ c ∈ cfg.alpha ∧ cfg.alpha.idxOf c = i ∧ i < b := by
  unfold digitFor dlut
  by_cases h : c ∈ cfg.alpha
  · simp only [h, if_true, true_and]
    split <;> simp <;> omega
  · simp [h]

/-- The symbols valid for a base are the first `b` of the alphabet (40_alphabet.md R129). -/
theorem digitFor_isSome {cfg : Config} {c : Byte} {b : Nat} :
    (digitFor cfg c b).isSome = true ↔ c ∈ cfg.alpha.take b := by
  have hp := (List.take_prefix b cfg.alpha).mem_iff_idxOf_lt_length c
  rw [Option.isSome_iff_exists, hp, List.length_take]
  simp only [digitFor_eq_some, ← List.idxOf_lt_length_iff (l := cfg.alpha)]
  constructor
  · rintro ⟨i, h1, rfl, h2⟩; omega
  · intro h; exact ⟨_, by omega, rfl, by omega⟩

/-- A scan that accepts every element gives one digit for each, in order. -/
theorem scan_eq_ok {f : Byte → Option Nat} {pos : Nat} {s : List Byte} {ds : List Nat} :
    scan f pos s = .ok ds ↔ s.map f = ds.map some := by
  induction s generalizing pos ds with
  | nil => cases ds <;> simp [scan]
  | cons c s ih =>
    rw [scan]
    cases hc : f c with
    | none => cases ds <;> simp [hc]
    | some d =>
      cases hs : scan f (pos + 1) s with
      | error e =>
        simp only [reduceCtorEq, List.map_cons, hc, false_iff]
        intro h
        cases ds with
        | nil => simp at h
        | cons e' ds => simp at h; simp [(ih (ds := ds)).2 h.2] at hs
      | ok es =>
        have := (ih (ds := es)).1 hs
        cases ds with
        | nil => simp
        | cons e' ds =>
          simp only [Except.ok.injEq, List.cons.injEq, List.map_cons, hc, Option.some.injEq, this]
          exact and_congr_right fun _ =>
            ⟨fun h => by rw [h], fun h => List.map_injective_iff.2 (Option.some_injective _) h⟩

/-- A scan that stops gives the lowest-indexed element that fails and its index (60_exceptions.md R242). -/
theorem scan_eq_error {f : Byte → Option Nat} {pos : Nat} {s : List Byte} {c : Byte} {p : Nat} :
    scan f pos s = .error (c, p) ↔
      ∃ k, p = pos + k ∧ s[k]? = some c ∧ f c = none ∧ ∀ j < k, ∀ x ∈ s[j]?, f x ≠ none := by
  induction s generalizing pos with
  | nil => simp [scan]
  | cons x s ih =>
    rw [scan]
    cases hx : f x with
    | none =>
      simp only [Except.error.injEq, Prod.mk.injEq]
      constructor
      · rintro ⟨rfl, rfl⟩; exact ⟨0, by simp [hx]⟩
      · rintro ⟨k, rfl, hk, hc, hj⟩
        cases k with
        | zero => simpa using hk
        | succ k => exact absurd hx (hj 0 (by omega) x (by simp))
    | some d =>
      have key : (∃ k, p = pos + k ∧ (x :: s)[k]? = some c ∧ f c = none ∧ ∀ j < k, ∀ y ∈ (x :: s)[j]?, f y ≠ none) ↔
          ∃ k, p = pos + 1 + k ∧ s[k]? = some c ∧ f c = none ∧ ∀ j < k, ∀ y ∈ s[j]?, f y ≠ none := by
        constructor
        · rintro ⟨k, rfl, hk, hc, hj⟩
          cases k with
          | zero =>
            obtain rfl : x = c := by simpa using hk
            simp [hx] at hc
          | succ k =>
            exact ⟨k, by omega, by simpa using hk, hc, fun j hjk y hy => hj (j + 1) (by omega) y (by simpa using hy)⟩
        · rintro ⟨k, rfl, hk, hc, hj⟩
          refine ⟨k + 1, by omega, by simpa using hk, hc, fun j hjk y hy => ?_⟩
          cases j with
          | zero => obtain rfl : x = y := by simpa using hy
                    simp [hx]
          | succ j => exact hj j (by omega) y (by simpa using hy)
      rw [key, ← ih]
      cases scan f (pos + 1) s <;> simp

end Sys2Proof.Laws
end

