-- ==== Sys2Proof/Laws/Memory.lean ====
section
/-! SUPPORT. The cells of a buffer: what a read gives after a write, that every operation keeps the canonical form, and
what the cells of a sequence hold. -/

namespace Sys2Proof.Laws

open Sys2Proof Sys2Proof.Machine

@[simp] theorem read_nil (i : Nat) : Memory.read [] i = none := rfl

theorem read_cons (c : Host.Cell) (m : Memory) (i : Nat) :
    Memory.read (c :: m) i = if i = c.1 then some c.2 else Memory.read m i := by
  obtain ⟨j, v⟩ := c; rfl

theorem write_cons (c : Host.Cell) (m : Memory) (i : Nat) (v : Byte) :
    Memory.write (c :: m) i v =
      if i < c.1 then (i, v) :: c :: m else if i = c.1 then (i, v) :: m else c :: Memory.write m i v := by
  obtain ⟨j, u⟩ := c; rfl

/-- A read after a write to the same cell gives the value written. -/
@[simp] theorem read_write_same (m : Memory) (i : Nat) (v : Byte) : (m.write i v).read i = some v := by
  induction m with
  | nil => simp [Memory.write, Memory.read]
  | cons c m ih =>
    rw [write_cons]
    split
    · simp [read_cons]
    · split
      · simp [read_cons]
      · next h => simp [read_cons, h, ih]

/-- A write leaves every other cell alone. -/
theorem read_write_other (m : Memory) {i j : Nat} (v : Byte) (h : j ≠ i) : (m.write i v).read j = m.read j := by
  induction m with
  | nil => simp [Memory.write, read_cons, h]
  | cons c m ih =>
    rw [write_cons]
    split
    · rw [read_cons, if_neg h]
    · split
      · next e => simp [read_cons, h, ← e]
      · simp [read_cons, ih]

theorem wf_cons (c : Host.Cell) (m : Memory) :
    Memory.wf (c :: m) = true ↔ (∀ d ∈ m.head?, c.1 < d.1) ∧ Memory.wf m = true := by
  cases m <;> simp [Memory.wf]

theorem head_write (m : Memory) (i : Nat) (v : Byte) :
    ∀ d ∈ (m.write i v).head?, d.1 = i ∨ ∃ c ∈ m.head?, d.1 = c.1 := by
  cases m with
  | nil => simp [Memory.write]
  | cons c m =>
    rw [write_cons]
    split
    · simp
    · split
      · simp
      · simp

/-- A write keeps the canonical form. -/
theorem wf_write (m : Memory) (i : Nat) (v : Byte) (h : m.wf = true) : (m.write i v).wf = true := by
  induction m with
  | nil => rfl
  | cons c m ih =>
    obtain ⟨hc, hm⟩ := (wf_cons c m).1 h
    rw [write_cons]
    split
    · next hi => exact (wf_cons _ _).2 ⟨by simpa using hi, h⟩
    · split
      · next hi => exact (wf_cons _ _).2 ⟨by simpa [hi] using hc, hm⟩
      · next h1 h2 =>
        refine (wf_cons _ _).2 ⟨fun d hd => ?_, ih hm⟩
        rcases head_write m i v d hd with e | ⟨b, hb, e⟩
        · omega
        · rw [e]; exact hc b hb

theorem head_cellsFrom (start : Nat) (out : List Byte) : ∀ d ∈ (cellsFrom start out).head?, d.1 = start := by
  cases out <;> simp [cellsFrom]

/-- The cells of a sequence are in canonical form. -/
theorem wf_cellsFrom (start : Nat) (out : List Byte) : Memory.wf (cellsFrom start out) = true := by
  induction out generalizing start with
  | nil => rfl
  | cons v out ih =>
    refine (wf_cons _ _).2 ⟨fun d hd => ?_, ih (start + 1)⟩
    have := head_cellsFrom (start + 1) out d hd
    simp [this]

/-- What the cells of a sequence hold: its elements from `start` on, and nothing else. -/
theorem read_cellsFrom (start : Nat) (out : List Byte) (i : Nat) :
    Memory.read (cellsFrom start out) i = if i < start then none else out[i - start]? := by
  induction out generalizing start with
  | nil => simp [cellsFrom]
  | cons v out ih =>
    rw [cellsFrom, read_cons, ih]
    rcases Nat.lt_trichotomy i start with h | h | h
    · simp [h, Nat.ne_of_lt h, Nat.lt_succ_of_lt h]
    · simp [h]
    · obtain ⟨k, rfl⟩ : ∃ k, i = start + 1 + k := ⟨i - (start + 1), by omega⟩
      have h1 : ¬ start + 1 + k < start := by omega
      have h2 : start + 1 + k - start = k + 1 := by omega
      have h3 : start + 1 + k ≠ start := by omega
      simp [h1, h2, h3]
      omega

/-- The cells of a whole output hold it. -/
@[simp] theorem read_cellsFrom_zero (out : List Byte) (i : Nat) : Memory.read (cellsFrom 0 out) i = out[i]? := by
  simp [read_cellsFrom]

end Sys2Proof.Laws
end

