-- ==== Sys2Proof/Laws/State.lean ====
section
/-! SUPPORT. One lemma per field of State for each named update, so that no proof unfolds a record update. -/

namespace Sys2Proof.Laws

open Sys2Proof Sys2Proof.Machine

variable (s : State)

/-- Z reads 1 exactly when ACC = 0 (10_state.md R28). -/
theorem zero_eq_true {s : State} : s.zero = true ↔ s.acc = 0 := by simp [State.zero]

@[simp] theorem complete_cfg (code : CompletionCode) (ch : Byte) (pos : Len) : (s.complete code ch pos).cfg = s.cfg := rfl
@[simp] theorem complete_acc (code : CompletionCode) (ch : Byte) (pos : Len) : (s.complete code ch pos).acc = s.acc := rfl
@[simp] theorem complete_res (code : CompletionCode) (ch : Byte) (pos : Len) : (s.complete code ch pos).res = s.res := rfl
@[simp] theorem complete_ibuf (code : CompletionCode) (ch : Byte) (pos : Len) : (s.complete code ch pos).ibuf = s.ibuf := rfl
@[simp] theorem complete_ilen (code : CompletionCode) (ch : Byte) (pos : Len) : (s.complete code ch pos).ilen = s.ilen := rfl
@[simp] theorem complete_obuf (code : CompletionCode) (ch : Byte) (pos : Len) : (s.complete code ch pos).obuf = s.obuf := rfl
@[simp] theorem complete_olen (code : CompletionCode) (ch : Byte) (pos : Len) : (s.complete code ch pos).olen = s.olen := rfl
@[simp] theorem complete_done (code : CompletionCode) (ch : Byte) (pos : Len) : (s.complete code ch pos).done = true := rfl
@[simp] theorem complete_err (code : CompletionCode) (ch : Byte) (pos : Len) : (s.complete code ch pos).err = code := rfl
@[simp] theorem complete_errchar (code : CompletionCode) (ch : Byte) (pos : Len) : (s.complete code ch pos).errchar = ch := rfl
@[simp] theorem complete_errpos (code : CompletionCode) (ch : Byte) (pos : Len) : (s.complete code ch pos).errpos = pos := rfl
@[simp] theorem complete_cmdr (code : CompletionCode) (ch : Byte) (pos : Len) : (s.complete code ch pos).cmdr = none := rfl
@[simp] theorem complete_host (code : CompletionCode) (ch : Byte) (pos : Len) : (s.complete code ch pos).host = s.host := rfl
@[simp] theorem complete_reads (code : CompletionCode) (ch : Byte) (pos : Len) : (s.complete code ch pos).reads = s.reads := rfl
@[simp] theorem complete_epoch (code : CompletionCode) (ch : Byte) (pos : Len) : (s.complete code ch pos).epoch = s.epoch := rfl
@[simp] theorem complete_draws (code : CompletionCode) (ch : Byte) (pos : Len) : (s.complete code ch pos).draws = s.draws := rfl

@[simp] theorem succeed_cfg : (s.succeed).cfg = s.cfg := rfl
@[simp] theorem succeed_acc : (s.succeed).acc = s.acc := rfl
@[simp] theorem succeed_res : (s.succeed).res = s.res := rfl
@[simp] theorem succeed_ibuf : (s.succeed).ibuf = s.ibuf := rfl
@[simp] theorem succeed_ilen : (s.succeed).ilen = s.ilen := rfl
@[simp] theorem succeed_obuf : (s.succeed).obuf = s.obuf := rfl
@[simp] theorem succeed_olen : (s.succeed).olen = s.olen := rfl
@[simp] theorem succeed_done : (s.succeed).done = true := rfl
@[simp] theorem succeed_err : (s.succeed).err = .ok := rfl
@[simp] theorem succeed_errchar : (s.succeed).errchar = 0 := rfl
@[simp] theorem succeed_errpos : (s.succeed).errpos = 0 := rfl
@[simp] theorem succeed_cmdr : (s.succeed).cmdr = none := rfl
@[simp] theorem succeed_host : (s.succeed).host = s.host := rfl
@[simp] theorem succeed_reads : (s.succeed).reads = s.reads := rfl
@[simp] theorem succeed_epoch : (s.succeed).epoch = s.epoch := rfl
@[simp] theorem succeed_draws : (s.succeed).draws = s.draws := rfl

@[simp] theorem dropOutput_cfg : (s.dropOutput).cfg = s.cfg := rfl
@[simp] theorem dropOutput_acc : (s.dropOutput).acc = s.acc := rfl
@[simp] theorem dropOutput_res : (s.dropOutput).res = s.res := rfl
@[simp] theorem dropOutput_ibuf : (s.dropOutput).ibuf = s.ibuf := rfl
@[simp] theorem dropOutput_ilen : (s.dropOutput).ilen = s.ilen := rfl
@[simp] theorem dropOutput_obuf : (s.dropOutput).obuf = [] := rfl
@[simp] theorem dropOutput_olen : (s.dropOutput).olen = 0 := rfl
@[simp] theorem dropOutput_done : (s.dropOutput).done = s.done := rfl
@[simp] theorem dropOutput_err : (s.dropOutput).err = s.err := rfl
@[simp] theorem dropOutput_errchar : (s.dropOutput).errchar = s.errchar := rfl
@[simp] theorem dropOutput_errpos : (s.dropOutput).errpos = s.errpos := rfl
@[simp] theorem dropOutput_cmdr : (s.dropOutput).cmdr = s.cmdr := rfl
@[simp] theorem dropOutput_host : (s.dropOutput).host = s.host := rfl
@[simp] theorem dropOutput_reads : (s.dropOutput).reads = s.reads := rfl
@[simp] theorem dropOutput_epoch : (s.dropOutput).epoch = s.epoch := rfl
@[simp] theorem dropOutput_draws : (s.dropOutput).draws = s.draws := rfl

@[simp] theorem setOutput_cfg (out : List Byte) (len : Nat) : (s.setOutput out len).cfg = s.cfg := rfl
@[simp] theorem setOutput_acc (out : List Byte) (len : Nat) : (s.setOutput out len).acc = s.acc := rfl
@[simp] theorem setOutput_res (out : List Byte) (len : Nat) : (s.setOutput out len).res = s.res := rfl
@[simp] theorem setOutput_ibuf (out : List Byte) (len : Nat) : (s.setOutput out len).ibuf = s.ibuf := rfl
@[simp] theorem setOutput_ilen (out : List Byte) (len : Nat) : (s.setOutput out len).ilen = s.ilen := rfl
@[simp] theorem setOutput_obuf (out : List Byte) (len : Nat) : (s.setOutput out len).obuf = cellsFrom 0 out := rfl
@[simp] theorem setOutput_olen (out : List Byte) (len : Nat) : (s.setOutput out len).olen = BitVec.ofNat 32 len := rfl
@[simp] theorem setOutput_done (out : List Byte) (len : Nat) : (s.setOutput out len).done = s.done := rfl
@[simp] theorem setOutput_err (out : List Byte) (len : Nat) : (s.setOutput out len).err = s.err := rfl
@[simp] theorem setOutput_errchar (out : List Byte) (len : Nat) : (s.setOutput out len).errchar = s.errchar := rfl
@[simp] theorem setOutput_errpos (out : List Byte) (len : Nat) : (s.setOutput out len).errpos = s.errpos := rfl
@[simp] theorem setOutput_cmdr (out : List Byte) (len : Nat) : (s.setOutput out len).cmdr = s.cmdr := rfl
@[simp] theorem setOutput_host (out : List Byte) (len : Nat) : (s.setOutput out len).host = s.host := rfl
@[simp] theorem setOutput_reads (out : List Byte) (len : Nat) : (s.setOutput out len).reads = s.reads := rfl
@[simp] theorem setOutput_epoch (out : List Byte) (len : Nat) : (s.setOutput out len).epoch = s.epoch := rfl
@[simp] theorem setOutput_draws (out : List Byte) (len : Nat) : (s.setOutput out len).draws = s.draws := rfl

@[simp] theorem accept_cfg (w : Word) : (accept w s).cfg = s.cfg := rfl
@[simp] theorem accept_acc (w : Word) : (accept w s).acc = s.acc := rfl
@[simp] theorem accept_res (w : Word) : (accept w s).res = s.res := rfl
@[simp] theorem accept_ibuf (w : Word) : (accept w s).ibuf = s.ibuf := rfl
@[simp] theorem accept_ilen (w : Word) : (accept w s).ilen = s.ilen := rfl
@[simp] theorem accept_obuf (w : Word) : (accept w s).obuf = s.obuf := rfl
@[simp] theorem accept_olen (w : Word) : (accept w s).olen = s.olen := rfl
@[simp] theorem accept_done (w : Word) : (accept w s).done = false := rfl
@[simp] theorem accept_err (w : Word) : (accept w s).err = .ok := rfl
@[simp] theorem accept_errchar (w : Word) : (accept w s).errchar = s.errchar := rfl
@[simp] theorem accept_errpos (w : Word) : (accept w s).errpos = s.errpos := rfl
@[simp] theorem accept_cmdr (w : Word) : (accept w s).cmdr = some w := rfl
@[simp] theorem accept_host (w : Word) : (accept w s).host = s.host := rfl
@[simp] theorem accept_reads (w : Word) : (accept w s).reads = s.reads := rfl
@[simp] theorem accept_epoch (w : Word) : (accept w s).epoch = s.epoch := rfl
@[simp] theorem accept_draws (w : Word) : (accept w s).draws = s.draws := rfl

@[simp] theorem applyReset_cfg : (applyReset s).cfg = s.cfg := rfl
@[simp] theorem applyReset_acc : (applyReset s).acc = 0 := rfl
@[simp] theorem applyReset_res : (applyReset s).res = 0 := rfl
@[simp] theorem applyReset_ibuf : (applyReset s).ibuf = [] := rfl
@[simp] theorem applyReset_ilen : (applyReset s).ilen = 0 := rfl
@[simp] theorem applyReset_obuf : (applyReset s).obuf = [] := rfl
@[simp] theorem applyReset_olen : (applyReset s).olen = 0 := rfl
@[simp] theorem applyReset_done : (applyReset s).done = false := rfl
@[simp] theorem applyReset_err : (applyReset s).err = .ok := rfl
@[simp] theorem applyReset_errchar : (applyReset s).errchar = 0 := rfl
@[simp] theorem applyReset_errpos : (applyReset s).errpos = 0 := rfl
@[simp] theorem applyReset_cmdr : (applyReset s).cmdr = none := rfl
@[simp] theorem applyReset_host : (applyReset s).host = s.host := rfl
@[simp] theorem applyReset_reads : (applyReset s).reads = s.reads := rfl
@[simp] theorem applyReset_epoch : (applyReset s).epoch = s.epoch + 1 := rfl
@[simp] theorem applyReset_draws : (applyReset s).draws = s.draws := rfl

@[simp] theorem logRead_cfg (v : HostRead) : (s.logRead v).cfg = s.cfg := rfl
@[simp] theorem logRead_acc (v : HostRead) : (s.logRead v).acc = s.acc := rfl
@[simp] theorem logRead_res (v : HostRead) : (s.logRead v).res = s.res := rfl
@[simp] theorem logRead_ibuf (v : HostRead) : (s.logRead v).ibuf = s.ibuf := rfl
@[simp] theorem logRead_ilen (v : HostRead) : (s.logRead v).ilen = s.ilen := rfl
@[simp] theorem logRead_obuf (v : HostRead) : (s.logRead v).obuf = s.obuf := rfl
@[simp] theorem logRead_olen (v : HostRead) : (s.logRead v).olen = s.olen := rfl
@[simp] theorem logRead_done (v : HostRead) : (s.logRead v).done = s.done := rfl
@[simp] theorem logRead_err (v : HostRead) : (s.logRead v).err = s.err := rfl
@[simp] theorem logRead_errchar (v : HostRead) : (s.logRead v).errchar = s.errchar := rfl
@[simp] theorem logRead_errpos (v : HostRead) : (s.logRead v).errpos = s.errpos := rfl
@[simp] theorem logRead_cmdr (v : HostRead) : (s.logRead v).cmdr = s.cmdr := rfl
@[simp] theorem logRead_host (v : HostRead) : (s.logRead v).host = s.host := rfl
@[simp] theorem logRead_reads (v : HostRead) : (s.logRead v).reads = s.reads ++ [v] := rfl
@[simp] theorem logRead_epoch (v : HostRead) : (s.logRead v).epoch = s.epoch := rfl
@[simp] theorem logRead_draws (v : HostRead) : (s.logRead v).draws = s.draws := rfl

@[simp] theorem drew_cfg : (s.drew).cfg = s.cfg := rfl
@[simp] theorem drew_acc : (s.drew).acc = s.acc := rfl
@[simp] theorem drew_res : (s.drew).res = s.res := rfl
@[simp] theorem drew_ibuf : (s.drew).ibuf = s.ibuf := rfl
@[simp] theorem drew_ilen : (s.drew).ilen = s.ilen := rfl
@[simp] theorem drew_obuf : (s.drew).obuf = s.obuf := rfl
@[simp] theorem drew_olen : (s.drew).olen = s.olen := rfl
@[simp] theorem drew_done : (s.drew).done = s.done := rfl
@[simp] theorem drew_err : (s.drew).err = s.err := rfl
@[simp] theorem drew_errchar : (s.drew).errchar = s.errchar := rfl
@[simp] theorem drew_errpos : (s.drew).errpos = s.errpos := rfl
@[simp] theorem drew_cmdr : (s.drew).cmdr = s.cmdr := rfl
@[simp] theorem drew_host : (s.drew).host = s.host := rfl
@[simp] theorem drew_reads : (s.drew).reads = s.reads := rfl
@[simp] theorem drew_epoch : (s.drew).epoch = s.epoch := rfl
@[simp] theorem drew_draws : (s.drew).draws = s.draws + 1 := rfl

@[simp] theorem resetWith_cfg (c : Config) : (State.resetWith c).cfg = c := rfl
@[simp] theorem resetWith_acc (c : Config) : (State.resetWith c).acc = 0 := rfl
@[simp] theorem resetWith_res (c : Config) : (State.resetWith c).res = 0 := rfl
@[simp] theorem resetWith_ibuf (c : Config) : (State.resetWith c).ibuf = [] := rfl
@[simp] theorem resetWith_ilen (c : Config) : (State.resetWith c).ilen = 0 := rfl
@[simp] theorem resetWith_obuf (c : Config) : (State.resetWith c).obuf = [] := rfl
@[simp] theorem resetWith_olen (c : Config) : (State.resetWith c).olen = 0 := rfl
@[simp] theorem resetWith_done (c : Config) : (State.resetWith c).done = false := rfl
@[simp] theorem resetWith_err (c : Config) : (State.resetWith c).err = .ok := rfl
@[simp] theorem resetWith_errchar (c : Config) : (State.resetWith c).errchar = 0 := rfl
@[simp] theorem resetWith_errpos (c : Config) : (State.resetWith c).errpos = 0 := rfl
@[simp] theorem resetWith_cmdr (c : Config) : (State.resetWith c).cmdr = none := rfl
@[simp] theorem resetWith_host (c : Config) : (State.resetWith c).host = [] := rfl
@[simp] theorem resetWith_reads (c : Config) : (State.resetWith c).reads = [] := rfl
@[simp] theorem resetWith_epoch (c : Config) : (State.resetWith c).epoch = 0 := rfl
@[simp] theorem resetWith_draws (c : Config) : (State.resetWith c).draws = 0 := rfl

end Sys2Proof.Laws
end

