-- ==== Sys2Proof/Laws/Exec.lean ====
section
/-! SUPPORT. What the shared operations of a command can do, said once: writing an output, raising an error, and
executing and completing any command. -/

namespace Sys2Proof.Laws

open Sys2Proof Sys2Proof.Machine

/-- Writing an output answers a next state exactly when it fits (20_memory.md R68). -/
theorem emit_eq_next {z : Nat} {pad : Byte} {body : List Byte} {s t : State} :
    emit z pad body s = .next t ↔ z + body.length ≤ s.cfg.outputLimit ∧
      t = (s.setOutput (List.replicate z pad ++ body) (z + body.length)).succeed := by
  unfold emit; split <;> simp_all [eq_comm]

theorem emit_of_le {z : Nat} {pad : Byte} {body : List Byte} {s : State} (h : z + body.length ≤ s.cfg.outputLimit) :
    emit z pad body s = .next (s.setOutput (List.replicate z pad ++ body) (z + body.length)).succeed :=
  emit_eq_next.2 ⟨h, rfl⟩

theorem emit_of_gt {z : Nat} {pad : Byte} {body : List Byte} {s : State} (h : s.cfg.outputLimit < z + body.length) :
    emit z pad body s = .refused .outputTooLong := by
  unfold emit; rw [if_neg (by omega)]

theorem emit_ne_fault {z : Nat} {pad : Byte} {body : List Byte} {s : State} {f : Fault} :
    emit z pad body s ≠ .fault f := by
  unfold emit; split <;> simp

section Raise
variable (m : Option Mnemonic) (e : Raised) (s : State)

@[simp] theorem raise_cfg : (raise m e s).cfg = s.cfg := by unfold raise; split <;> split <;> rfl
@[simp] theorem raise_res : (raise m e s).res = s.res := by unfold raise; split <;> split <;> rfl
@[simp] theorem raise_ibuf : (raise m e s).ibuf = s.ibuf := by unfold raise; split <;> split <;> rfl
@[simp] theorem raise_ilen : (raise m e s).ilen = s.ilen := by unfold raise; split <;> split <;> rfl
@[simp] theorem raise_host : (raise m e s).host = s.host := by unfold raise; split <;> split <;> rfl
@[simp] theorem raise_reads : (raise m e s).reads = s.reads := by unfold raise; split <;> split <;> rfl
@[simp] theorem raise_epoch : (raise m e s).epoch = s.epoch := by unfold raise; split <;> split <;> rfl
@[simp] theorem raise_draws : (raise m e s).draws = s.draws := by unfold raise; split <;> split <;> rfl
@[simp] theorem raise_err : (raise m e s).err = e.code := by unfold raise; split <;> split <;> rfl
@[simp] theorem raise_errchar : (raise m e s).errchar = e.char := by unfold raise; split <;> split <;> rfl
@[simp] theorem raise_errpos : (raise m e s).errpos = e.pos := by unfold raise; split <;> split <;> rfl
@[simp] theorem raise_done : (raise m e s).done = true := by unfold raise; split <;> split <;> rfl
@[simp] theorem raise_cmdr : (raise m e s).cmdr = none := by unfold raise; split <;> split <;> rfl
@[simp] theorem raise_acc : (raise m e s).acc = if dropsAcc m e then 0 else s.acc := by
  unfold raise; split <;> split <;> simp_all
@[simp] theorem raise_obuf : (raise m e s).obuf = if dropsOutput m e then [] else s.obuf := by
  unfold raise; split <;> split <;> simp_all
@[simp] theorem raise_olen : (raise m e s).olen = if dropsOutput m e then 0 else s.olen := by
  unfold raise; split <;> split <;> simp_all

end Raise

/-- An error that records nothing leaves ERRCHAR and ERRPOS at 0 (60_exceptions.md R230). -/
theorem records_nothing (e : Raised) (h2 : e.code ≠ .invalidCharacter) (h3 : e.code ≠ .invalidDigit) :
    e.char = 0 ∧ e.pos = 0 := by
  cases e <;> simp_all [Raised.code, Raised.char, Raised.pos]

/-- What executing and completing a command can change: ACC, RES, the whole output, and the completion registers. -/
structure CommandEffect (s t : State) : Prop where
  frame : ∃ acc res obuf olen code ch pos,
    t = { s with
      acc := acc, res := res, obuf := obuf, olen := olen, err := code, errchar := ch, errpos := pos, done := true,
      cmdr := none }
  output : (t.obuf = s.obuf ∧ t.olen = s.olen) ∨ ∃ out : List Byte,
    t.obuf = cellsFrom 0 out ∧ t.olen = BitVec.ofNat 32 out.length ∧ out.length ≤ s.cfg.outputLimit
  records : t.err ≠ .invalidCharacter → t.err ≠ .invalidDigit → t.errchar = 0 ∧ t.errpos = 0

theorem raise_effect (m : Option Mnemonic) (e : Raised) (s : State) : CommandEffect s (raise m e s) where
  frame := ⟨(raise m e s).acc, s.res, (raise m e s).obuf, (raise m e s).olen, e.code, e.char, e.pos, by
    unfold raise; split <;> split <;> rfl⟩
  output := by
    by_cases h : dropsOutput m e
    · exact .inr ⟨[], by simp [h, cellsFrom], by simp [h], by simp⟩
    · exact .inl (by simp [h])
  records := by simpa using records_nothing e

theorem succeed_effect {s t : State} (h : ∃ acc res, t = { s with acc := acc, res := res }) :
    CommandEffect s t.succeed := by
  obtain ⟨acc, res, rfl⟩ := h
  exact ⟨⟨acc, res, s.obuf, s.olen, .ok, 0, 0, rfl⟩, .inl ⟨rfl, rfl⟩, by simp⟩

theorem emit_effect {z : Nat} {pad : Byte} {body : List Byte} {s t : State} {acc : Nat}
    (h : emit z pad body { s with acc := acc } = .next t) : CommandEffect s t := by
  obtain ⟨hl, rfl⟩ := emit_eq_next.1 h
  exact ⟨⟨acc, s.res, _, _, .ok, 0, 0, rfl⟩, .inr ⟨_, rfl, by simp, by simpa using hl⟩, by simp⟩

/-- If executing a command answers a next state, the command has completed and changed only what a command may. -/
theorem exec_effect {i : Instr} {s t : State} (h : exec i s = .next t) : CommandEffect s t := by
  cases i with
  | nop => cases h; exact succeed_effect ⟨_, _, rfl⟩
  | clr => cases h; exact succeed_effect ⟨_, _, rfl⟩
  | ldb => cases h; exact succeed_effect ⟨_, _, rfl⟩
  | muladd m a =>
    simp only [exec, execMuladd] at h
    split at h <;> cases h
    · exact succeed_effect ⟨_, _, rfl⟩
    · exact raise_effect _ _ _
  | divmod d =>
    simp only [exec, execDivmod] at h
    split at h <;> cases h
    · exact succeed_effect ⟨_, _, rfl⟩
    · exact raise_effect _ _ _
  | sym d =>
    simp only [exec, execSym] at h
    split at h <;> cases h
    · exact succeed_effect ⟨_, _, rfl⟩
    · exact raise_effect _ _ _
  | dig c b =>
    simp only [exec, execDig] at h
    split at h
    · split at h <;> cases h
      · exact raise_effect _ _ _
      · exact succeed_effect ⟨_, _, rfl⟩
    · cases h; exact raise_effect _ _ _
  | ldd n =>
    simp only [exec, execLdd] at h
    split at h
    · split at h <;> cases h
      · exact raise_effect _ _ _
      · exact succeed_effect ⟨_, _, rfl⟩
    · cases h; exact raise_effect _ _ _
  | enc b =>
    simp only [exec, execEnc] at h
    split at h
    · exact emit_effect h
    · cases h; exact raise_effect _ _ _
  | dec b =>
    simp only [exec, execDec] at h
    split at h
    · split at h
      · cases h; exact raise_effect _ _ _
      · exact emit_effect h
    · cases h; exact raise_effect _ _ _
  | stb m => exact emit_effect h
  | std n =>
    simp only [exec, execStd] at h
    split at h
    · exact emit_effect h
    · cases h; exact raise_effect _ _ _

end Sys2Proof.Laws
end

