-- ==== Sys2Proof/Laws/Claims.lean ====
section
/-! SUPPORT. The terms of Safety.lean against the operations of the machine: the sum that `val_r` is, the library's
digits, and the leading elements. -/

namespace Sys2Proof.Laws

open Sys2Proof Sys2Proof.Machine

/-- The sum of 00_scope.md R8 is what the multiply-add loop computes (43_bigint.md R182, R184). -/
theorem positional_eq_valueIn (r : Nat) (s : List Nat) : positional r s = valueIn r s := by
  induction s with
  | nil => rfl
  | cons x s ih =>
    rw [valueIn_cons, ← ih, positional, List.length_cons, Finset.sum_range_succ', Nat.add_comm]
    refine congrArg₂ (· + ·) (by simp) (Finset.sum_congr rfl fun k _ => ?_)
    have : s.length + 1 - 1 - (k + 1) = s.length - 1 - k := by omega
    simp only [List.getD_cons_succ, this]

/-- The library's digits are what the divmod loop leaves (43_bigint.md R185). -/
theorem bigEndian_eq_digitsOf {r : Nat} (hr : 2 ≤ r) (v : Nat) : bigEndian r v = digitsOf r v := by
  rw [bigEndian, digitsOf_eq hr]

theorem bigEndian_256 (v : Nat) : (bigEndian 256 v).map (BitVec.ofNat 8) = toBase256 v := by
  rw [bigEndian_eq_digitsOf (by omega)]; rfl

/-- Leading zero bytes, counted on the bytes or on their values. -/
theorem leading_zero_eq (x : List Byte) : leading 0 x = leadingCount 0 (x.map (·.toNat)) := by
  induction x with
  | nil => rfl
  | cons c x ih =>
    rw [leading, List.takeWhile_cons, List.map_cons, leadingCount]
    by_cases h : c = 0
    · simp [h]; exact ih
    · have h' : c.toNat ≠ 0 := fun e => h (BitVec.eq_of_toNat_eq (by simpa using e))
      have h2 : ¬ c = 0#8 := h
      simp [h2, h']

/-- Leading elements whose digit is 0, counted on the elements or on the digits. -/
theorem takeWhile_zero_length (f : Byte → Nat) (x : List Byte) :
    (x.takeWhile (fun c => f c == 0)).length = leadingCount 0 (x.map f) := by
  induction x with
  | nil => rfl
  | cons c x ih =>
    rw [List.takeWhile_cons, List.map_cons, leadingCount]
    by_cases h : f c = 0
    · simp [h, ih]
    · simp [h]

/-- A base is legal when its value is in 2..94 (60_exceptions.md R231). -/
theorem legalBase_iff {b : BitVec 16} : legalBase b = true ↔ 2 ≤ b.toNat ∧ b.toNat ≤ 94 := by
  simp only [legalBase, Bool.and_eq_true, decide_eq_true_eq]; rfl

theorem legalBase_eq_false {b : BitVec 16} : legalBase b = false ↔ b.toNat < 2 ∨ 94 < b.toNat := by
  rw [← Bool.not_eq_true, legalBase_iff]; omega

/-- A radix is legal when its value is in 2..256 (30_encoding.md R95). -/
theorem legalRadix_iff {m : BitVec 9} : legalRadix m = true ↔ 2 ≤ m.toNat ∧ m.toNat ≤ 256 := by
  simp only [legalRadix, Bool.and_eq_true, decide_eq_true_eq]; rfl

/-- The bytes of ENC's output are its closed form (41_encoder.md R141). -/
theorem encoded_eq {alpha : List Byte} {b : Nat} (hb : 2 ≤ b) (x : List Byte) :
    encoded alpha b x =
      List.replicate (leadingCount 0 (x.map (·.toNat))) (alpha.getD 0 0) ++ (encodeDigits b x).map (alpha.getD · 0) := by
  rw [encoded, leading_zero_eq, positional_eq_valueIn, bigEndian_eq_digitsOf hb]; rfl

/-- The bytes of DEC's output are its closed form (42_decoder.md R156). -/
theorem decoded_eq (alpha : List Byte) (b : Nat) (x : List Byte) :
    decoded alpha b x =
      List.replicate (leadingCount 0 (x.map alpha.idxOf)) 0 ++ toBase256 (fromDigits b (x.map alpha.idxOf)) := by
  rw [decoded, takeWhile_zero_length, positional_eq_valueIn, bigEndian_256]; rfl

/-- A string all of whose characters are symbols of the base scans to their indices (42_decoder.md R156). -/
theorem scan_symbols {cfg : Config} {b pos : Nat} {x : List Byte} (h : ∀ c ∈ x, c ∈ cfg.alpha.take b) :
    scan (fun c => digitFor cfg c b) pos x = .ok (x.map cfg.alpha.idxOf) := by
  rw [scan_eq_ok, List.map_map]
  refine List.map_congr_left fun c hc => ?_
  obtain ⟨i, hi⟩ := Option.isSome_iff_exists.1 (digitFor_isSome.2 (h c hc))
  rw [hi, Function.comp_apply, ← (digitFor_eq_some.1 hi).2.1]

/-- Digits all below the base scan to their values (43_bigint.md R176). -/
theorem scan_digits {n pos : Nat} {x : List Byte} (h : ∀ d ∈ x, d.toNat < n) :
    scan (digitBelow n) pos x = .ok (x.map (·.toNat)) := by
  rw [scan_eq_ok, List.map_map]
  exact List.map_congr_left fun d hd => by simp [digitBelow, h d hd]

/-- The input of a state whose buffer is one whole sequence is that sequence. -/
theorem input_cellsFrom {s : State} {out : List Byte} (hb : s.ibuf = cellsFrom 0 out) (hl : s.ilen.toNat = out.length) :
    s.input = out := by
  refine List.ext_getElem (by simp [State.input, hl]) fun k h1 h2 => ?_
  simp [State.input, State.ibufCell, hb, h2]

/-- The output of a state whose buffer is one whole sequence is that sequence. -/
theorem output_cellsFrom {s : State} {out : List Byte} (hb : s.obuf = cellsFrom 0 out) (hl : s.olen.toNat = out.length) :
    s.output = out.map some := by
  refine List.ext_getElem (by simp [State.output, hl]) fun k h1 h2 => ?_
  have h3 : k < out.length := by simpa using h2
  simp [State.output, hb, h3]

/-- A length within the limit fits the length register (93_implementation_defined.md U4). -/
theorem toNat_ofNat_of_le_limit {cfg : Config} {n : Nat} (h : n ≤ cfg.outputLimit) : (BitVec.ofNat 32 n).toNat = n := by
  have : n ≤ 2 ^ 32 - 1 := by
    unfold Config.outputLimit maxLen at h
    split at h <;> omega
  rw [BitVec.toNat_ofNat]; omega

end Sys2Proof.Laws
end

