-- ==== Sys2Proof/Laws/Encoding.lean ====
section
/-! SUPPORT. The bits of a command word against its fields (30_encoding.md R91). -/

namespace Sys2Proof.Laws

open Sys2Proof

/-- Each bit of a word built from its fields (30_encoding.md R91). -/
theorem wordOf_getLsbD (opc : BitVec 4) (a : BitVec 9) (b : BitVec 16) (k : Nat) :
    (wordOf opc a b).getLsbD k =
      if k < 16 then b.getLsbD k else if k < 25 then a.getLsbD (k - 16)
      else if k < 28 then false else opc.getLsbD (k - 28) := by
  have h1 : k - 16 < 9 ↔ k < 25 := by omega
  have h2 : k - 16 - 9 < 3 ↔ k < 28 := by omega
  have h3 : k - 16 - 9 - 3 = k - 28 := by omega
  rw [wordOf, BitVec.getLsbD_append, BitVec.getLsbD_append, BitVec.getLsbD_append, h3]
  simp [h1, h2]

@[simp] theorem fieldOPC_wordOf (opc : BitVec 4) (a : BitVec 9) (b : BitVec 16) :
    fieldOPC (wordOf opc a b) = opc := by
  refine BitVec.eq_of_getLsbD_eq fun k hk => ?_
  rw [fieldOPC, BitVec.getLsbD_extractLsb', wordOf_getLsbD, if_neg (by omega), if_neg (by omega), if_neg (by omega)]
  simp [hk]

@[simp] theorem fieldRSV_wordOf (opc : BitVec 4) (a : BitVec 9) (b : BitVec 16) :
    fieldRSV (wordOf opc a b) = 0 := by
  refine BitVec.eq_of_getLsbD_eq fun k hk => ?_
  rw [fieldRSV, BitVec.getLsbD_extractLsb', wordOf_getLsbD, if_neg (by omega), if_neg (by omega), if_pos (by omega)]
  simp

@[simp] theorem fieldA_wordOf (opc : BitVec 4) (a : BitVec 9) (b : BitVec 16) :
    fieldA (wordOf opc a b) = a := by
  refine BitVec.eq_of_getLsbD_eq fun k hk => ?_
  rw [fieldA, BitVec.getLsbD_extractLsb', wordOf_getLsbD, if_neg (by omega), if_pos (by omega)]
  simp [hk]

@[simp] theorem fieldB_wordOf (opc : BitVec 4) (a : BitVec 9) (b : BitVec 16) :
    fieldB (wordOf opc a b) = b := by
  refine BitVec.eq_of_getLsbD_eq fun k hk => ?_
  rw [fieldB, BitVec.getLsbD_extractLsb', wordOf_getLsbD, if_pos (by omega)]
  simp [hk]

/-- A word whose RSV field is 0 is built from its other three fields. -/
theorem wordOf_fields {w : Word} (h : fieldRSV w = 0) : wordOf (fieldOPC w) (fieldA w) (fieldB w) = w := by
  refine BitVec.eq_of_getLsbD_eq fun k hk => ?_
  rw [wordOf_getLsbD]
  split
  · simp [fieldB, *]
  · split
    · next h1 h2 =>
      have e : 16 + (k - 16) = k := by omega
      rw [fieldA, BitVec.getLsbD_extractLsb', e]; simp; omega
    · split
      · next h1 h2 h3 =>
        have e : 25 + (k - 25) = k := by omega
        have := congrArg (fun v => BitVec.getLsbD v (k - 25)) h
        simp only [fieldRSV, BitVec.getLsbD_extractLsb', e] at this
        rw [eq_comm]
        simpa [show k - 25 < 3 by omega] using this
      · next h1 h2 h3 =>
        have e : 28 + (k - 28) = k := by omega
        rw [fieldOPC, BitVec.getLsbD_extractLsb', e]; simp; omega

/-- Two words built from fields are equal exactly when the fields are. -/
theorem wordOf_eq_iff {opc opc' : BitVec 4} {a a' : BitVec 9} {b b' : BitVec 16} :
    wordOf opc a b = wordOf opc' a' b' ↔ opc = opc' ∧ a = a' ∧ b = b' := by
  constructor
  · intro h
    exact ⟨by simpa using congrArg fieldOPC h, by simpa using congrArg fieldA h, by simpa using congrArg fieldB h⟩
  · rintro ⟨rfl, rfl, rfl⟩; rfl

/-- The bits 15:8 are the upper half of B. -/
theorem fieldBHigh_eq (w : Word) : fieldBHigh w = (fieldB w).extractLsb' 8 8 := by
  refine BitVec.eq_of_getLsbD_eq fun k hk => ?_
  simp only [fieldBHigh, fieldB, BitVec.getLsbD_extractLsb', hk, decide_true, Bool.true_and,
    show 8 + k < 16 by omega, Nat.zero_add]

/-- The addend is the lower half of B. -/
theorem fieldAddend_eq (w : Word) : fieldAddend w = (fieldB w).setWidth 8 := by
  refine BitVec.eq_of_getLsbD_eq fun k hk => ?_
  simp [fieldAddend, fieldB, hk]; omega

/-- The character is the low 8 bits of A. -/
theorem fieldChar_eq (w : Word) : fieldChar w = (fieldA w).setWidth 8 := by
  refine BitVec.eq_of_getLsbD_eq fun k hk => ?_
  simp [fieldChar, fieldA, hk]; omega

/-- Bit 24 is the top bit of A. -/
theorem fieldATop_eq (w : Word) : fieldATop w = (fieldA w).extractLsb' 8 1 := by
  refine BitVec.eq_of_getLsbD_eq fun k hk => ?_
  obtain rfl : k = 0 := by omega
  simp [fieldATop, fieldA]

/-- OPC is the word shifted right by 28 (30_encoding.md R91). -/
theorem toNat_shift_28 (w : Word) : (w >>> 28).toNat = (fieldOPC w).toNat := by
  have := w.isLt
  simp only [fieldOPC, BitVec.toNat_ushiftRight, BitVec.extractLsb'_toNat]
  exact (Nat.mod_eq_of_lt (by rw [Nat.shiftRight_eq_div_pow]; omega)).symm

theorem zeroBits_eq_ok {ok : Bool} {i j : Instr} : zeroBits ok i = .ok j ↔ ok = true ∧ i = j := by
  unfold zeroBits; split <;> simp_all

theorem zeroBitsDomain_eq_ok {ok domain : Bool} {i j : Instr} :
    zeroBitsDomain ok domain i = .ok j ↔ ok = true ∧ domain = true ∧ i = j := by
  unfold zeroBitsDomain
  split
  · split <;> simp_all
  · simp_all

end Sys2Proof.Laws
end

