-- ==== Sys2Proof/Laws/PerInstr.lean ====
section
/-! SUPPORT. Facts about every command as syntax, one lemma per constructor of Instr. -/

namespace Sys2Proof.Laws

open Sys2Proof

/-- The word of a command selects the row of its mnemonic (30_encoding.md R92, R94). -/
def EncodesItsRow.Statement (i : Instr) : Prop :=
  encode i &&& (rowOf i.mnemonic).mask = (rowOf i.mnemonic).bits

/-- A row's fixed bits, checked bit by bit. -/
theorem rowBits {w mask bits : Word} (h : ∀ k : Fin 32, (w.getLsbD k && mask.getLsbD k) = bits.getLsbD k) :
    w &&& mask = bits := by
  ext k hk; simpa [BitVec.getLsbD_eq_getElem hk] using h ⟨k, hk⟩

theorem EncodesItsRow.nop : EncodesItsRow.Statement .nop := by unfold EncodesItsRow.Statement; decide

theorem EncodesItsRow.enc (base : BitVec 16) : EncodesItsRow.Statement (.enc base) := by
  refine rowBits fun k => ?_
  rw [encode, wordOf_getLsbD]
  fin_cases k <;> simp [rowOf, Instr.mnemonic]

theorem EncodesItsRow.dec (base : BitVec 16) : EncodesItsRow.Statement (.dec base) := by
  refine rowBits fun k => ?_
  rw [encode, wordOf_getLsbD]
  fin_cases k <;> simp [rowOf, Instr.mnemonic]

theorem EncodesItsRow.ldb : EncodesItsRow.Statement .ldb := by unfold EncodesItsRow.Statement; decide

theorem EncodesItsRow.stb (minLength : BitVec 16) : EncodesItsRow.Statement (.stb minLength) := by
  refine rowBits fun k => ?_
  rw [encode, wordOf_getLsbD]
  fin_cases k <;> simp [rowOf, Instr.mnemonic]

theorem EncodesItsRow.ldd (n : BitVec 16) : EncodesItsRow.Statement (.ldd n) := by
  refine rowBits fun k => ?_
  rw [encode, wordOf_getLsbD]
  fin_cases k <;> simp [rowOf, Instr.mnemonic]

theorem EncodesItsRow.std (n : BitVec 16) : EncodesItsRow.Statement (.std n) := by
  refine rowBits fun k => ?_
  rw [encode, wordOf_getLsbD]
  fin_cases k <;> simp [rowOf, Instr.mnemonic]

theorem EncodesItsRow.muladd (m : BitVec 9) (a : BitVec 8) : EncodesItsRow.Statement (.muladd m a) := by
  refine rowBits fun k => ?_
  rw [encode, wordOf_getLsbD]
  fin_cases k <;> simp [rowOf, Instr.mnemonic]

theorem EncodesItsRow.divmod (d : BitVec 9) : EncodesItsRow.Statement (.divmod d) := by
  refine rowBits fun k => ?_
  rw [encode, wordOf_getLsbD]
  fin_cases k <;> simp [rowOf, Instr.mnemonic]

theorem EncodesItsRow.sym (digit : BitVec 9) : EncodesItsRow.Statement (.sym digit) := by
  refine rowBits fun k => ?_
  rw [encode, wordOf_getLsbD]
  fin_cases k <;> simp [rowOf, Instr.mnemonic]

theorem EncodesItsRow.dig (c : BitVec 8) (base : BitVec 16) : EncodesItsRow.Statement (.dig c base) := by
  refine rowBits fun k => ?_
  rw [encode, wordOf_getLsbD]
  fin_cases k <;> simp [rowOf, Instr.mnemonic]

theorem EncodesItsRow.clr : EncodesItsRow.Statement .clr := by unfold EncodesItsRow.Statement; decide

end Sys2Proof.Laws
end

