-- ==== Sys2Proof/Laws/Step.lean ====
section
/-! SUPPORT. What a host access, a host turn and a step can do, said once. -/

namespace Sys2Proof.Laws

open Sys2Proof Sys2Proof.Machine

/-- What one host access can do to the state (44_control.md R217, R218, R219). -/
inductive HostEffect (s : State) : State → Prop where
  | nothing : HostEffect s s
  | read (v : HostRead) : HostEffect s (s.logRead v)
  | freeRead (v : HostRead) : HostEffect s (s.logRead v).drew
  | accepted (w : Word) (idle : s.cmdr = none) : HostEffect s (accept w s)
  | length (v : Word) (fits : allowsLength s.cfg v = true) : HostEffect s { s with ilen := v }
  | cell (i : Nat) (v : Byte) (exists_ : s.cfg.hasCell i = true) : HostEffect s { s with ibuf := s.ibuf.write i v }

theorem busy_eq_false {s : State} : s.busy = false ↔ s.cmdr = none := by
  simp [State.busy]

theorem busy_eq_true {s : State} : s.busy = true ↔ s.cmdr ≠ none := by
  simp [State.busy, Option.isSome_iff_ne_none]

theorem readRegIdle_effect {n : Nat} {s t : State} (h : readRegIdle n s = .next t) : HostEffect s t := by
  unfold readRegIdle at h
  split at h <;> cases h <;> exact .read _

theorem writeRegIdle_effect {n : Nat} {v : Word} {s t : State} (idle : s.cmdr = none)
    (h : writeRegIdle n v s = .next t) : HostEffect s t := by
  unfold writeRegIdle at h
  split at h
  case h_1 => cases h; exact .accepted _ idle
  case h_3 =>
    split at h <;> cases h
    exact .length _ ‹_›
  all_goals first | (cases h; exact .nothing) | cases h

theorem accessIdle_effect {a : HostAccess} {s t : State} (idle : s.cmdr = none) (h : accessIdle a s = .next t) :
    HostEffect s t := by
  cases a with
  | readReg n => exact readRegIdle_effect h
  | writeReg n v => exact writeRegIdle_effect idle h
  | readAddr addr bytes =>
    simp only [accessIdle] at h
    split at h
    · exact readRegIdle_effect h
    · cases h
  | writeAddr addr bytes v =>
    simp only [accessIdle] at h
    split at h
    · exact writeRegIdle_effect idle h
    · cases h
  | readIbuf i =>
    simp only [accessIdle, readIbufIdle] at h
    split at h <;> cases h
    exact .read _
  | writeIbuf i v =>
    simp only [accessIdle, writeIbufIdle] at h
    split at h <;> cases h
    exact .cell _ _ ‹_›
  | readObuf i =>
    simp only [accessIdle, readObufIdle] at h
    split at h
    · split at h <;> cases h
      · exact .read _
      · exact .freeRead _
    · cases h
  | writeObuf i v =>
    simp only [accessIdle, writeObufIdle] at h
    split at h <;> cases h
    exact .nothing

/-- If a host access answers a next state, it did one of the things an access may do. -/
theorem hostAccess_effect {a : HostAccess} {s t : State} (h : hostAccess a s = .next t) : HostEffect s t := by
  unfold hostAccess at h
  split at h
  · unfold accessBusy at h
    split at h <;> cases h
    exact .freeRead _
  · next hb => exact accessIdle_effect (busy_eq_false.1 (by simpa using hb)) h

theorem andThen_eq_next {o : Host.Outcome State Fault Refusal} {f : State → Host.Outcome State Fault Refusal}
    {t : State} : andThen o f = .next t ↔ ∃ u, o = .next u ∧ f u = .next t := by
  cases o <;> simp [andThen]

/-- A property that every host access keeps is kept by any sequence of them. -/
theorem hostAccesses_keep (P : State → Prop) (keep : ∀ s t, P s → HostEffect s t → P t) :
    ∀ (as : List HostAccess) {s t : State}, P s → hostAccesses as s = .next t → P t
  | [], _, _, hp, h => by cases h; exact hp
  | a :: as, s, t, hp, h => by
    obtain ⟨u, hu, ht⟩ := andThen_eq_next.1 h
    exact hostAccesses_keep P keep as (keep s u hp (hostAccess_effect hu)) ht

/-- A property that every host access and reset keep is kept by any turn of the host's side. -/
theorem hostAction_keeps (P : State → Prop) (keep : ∀ s t, P s → HostEffect s t → P t)
    (keepReset : ∀ s, P s → P (applyReset s)) {a : HostAction} {s t : State} (hp : P s)
    (h : hostAction a s = .next t) : P t := by
  cases a with
  | access a => exact keep s t hp (hostAccess_effect h)
  | out => exact hostAccesses_keep P keep _ hp h
  | move =>
    obtain ⟨u, hu, ht⟩ := andThen_eq_next.1 h
    exact hostAccesses_keep P keep _ (hostAccesses_keep P keep _ hp hu) ht
  | reset => cases h; exact keepReset s hp

/-- What a step can do: the engine runs the word in CMDR, or nothing is left to do, or the host takes its next turn. -/
theorem step_eq_next {s t : State} (h : step s = .next t) :
    (∃ w, s.cmdr = some w ∧ s.engineTurn = true ∧ runWord w s = .next t) ∨
    (s.cmdr = none ∧ s.host = [] ∧ t = s) ∨
    (∃ turn rest, s.host = turn :: rest ∧ s.engineTurn = false ∧
      hostAction turn.action { s with host := rest } = .next t) := by
  unfold step at h
  split at h
  · next he =>
    unfold engineStep at h
    split at h
    · next w hw => exact .inl ⟨w, hw, he, h⟩
    · next hn => simp [State.engineTurn, State.busy, hn] at he
  · next he =>
    unfold hostStep at h
    split at h
    · next hh =>
      cases h
      refine .inr (.inl ⟨?_, hh, rfl⟩)
      simpa [State.engineTurn, State.busy, hh] using he
    · next turn rest hh => exact .inr (.inr ⟨turn, rest, hh, by simpa using he, h⟩)

/-- Running a word answers a state that a command may leave: the decoded command's, or that of an illegal word. -/
theorem runWord_effect {w : Word} {s t : State} (h : runWord w s = .next t) : CommandEffect s t := by
  unfold runWord at h
  split at h
  · exact exec_effect h
  · cases h; exact raise_effect _ _ _

end Sys2Proof.Laws
end

