-- ==== Sys2Proof/Tests/Slice0.lean ====
section
/-! SUPPORT. Small tests, expected values from spec/95_test_vectors.md or worked out by hand from the rule named; and for
each statement with hypotheses a concrete state and operands that meet them. -/

namespace Sys2Proof.Tests

open Sys2Proof Sys2Proof.Machine

/-! ## Helpers -/

/-- The reset state with an input in IBUF. -/
def loaded (bytes : List Byte) : State :=
  { State.reset with ibuf := cellsFrom 0 bytes, ilen := BitVec.ofNat 32 bytes.length }

/-- The reset state with a value in ACC. -/
def holding (acc : Nat) : State := { State.reset with acc := acc }

/-- The reset state with a word accepted. -/
def withWord (w : Word) : State := accept w State.reset

/-- One field of the next state. -/
def after {α : Type} (f : State → α) : Host.Outcome State Fault Refusal → Option α
  | .next s => some (f s)
  | .fault _ => none
  | .refused _ => none

/-- The outcome is a next state. -/
def answersNext : Host.Outcome State Fault Refusal → Bool
  | .next _ => true
  | .fault _ => false
  | .refused _ => false

theorem exists_next {o : Host.Outcome State Fault Refusal} (h : answersNext o = true) : ∃ t, o = .next t := by
  cases o with
  | next t => exact ⟨t, rfl⟩
  | fault _ => cases h
  | refused _ => cases h

theorem exists_next_with {o : Host.Outcome State Fault Refusal} {p : State → Prop} [DecidablePred p]
    (h : after (fun t => decide (p t)) o = some true) : ∃ t, o = .next t ∧ p t := by
  cases o with
  | next t => exact ⟨t, rfl, by simpa [after] using h⟩
  | fault _ => cases h
  | refused _ => cases h

/-- A state with buffers of three cells. -/
def small (bytes : List Byte) : State := { loaded bytes with cfg := { referenceConfig with cap := some 3 } }

/-- STATUS as the host reads it while BUSY = 0, and the registers ERRCHAR and ERRPOS. -/
def report (s : State) : Word × Nat × Nat := (s.statusIdle, s.errchar.toNat, s.errpos.toNat)

/-- The output as numbers. -/
def outputBytes (s : State) : List (Option Nat) := s.output.map (Option.map BitVec.toNat)

/-! ## WellFormed refuses each ill-formed operand (30_encoding.md R95) -/

theorem test_wf_refuses_muladd_radix :
    [Instr.muladd 0 5, .muladd 1 0, .muladd 257 0, .muladd 511 0].all (fun i => !i.wf) = true := by decide
theorem test_wf_refuses_divmod_radix :
    [Instr.divmod 0, .divmod 1, .divmod 257, .divmod 511].all (fun i => !i.wf) = true := by decide
theorem test_wf_refuses_sym_digit : [Instr.sym 94, .sym 511].all (fun i => !i.wf) = true := by decide
theorem test_wf_accepts_boundaries :
    [Instr.muladd 2 255, .muladd 256 0, .divmod 2, .divmod 256, .sym 0, .sym 93, .enc 65535].all Instr.wf = true := by
  decide

/-! ## Words written out from the encodings (30_encoding.md R94, R100; 95_test_vectors.md section 2.1) -/

theorem test_decode_nop : decode 0b00000000000000000000000000000000#32 = .ok .nop := by decide
theorem test_decode_enc : decode 0b00010000000000000000000001011110#32 = .ok (.enc 94) := by decide
theorem test_decode_dec : decode 0b00100000000000000000000000001010#32 = .ok (.dec 10) := by decide
theorem test_decode_ldb : decode 0b00110000000000000000000000000000#32 = .ok .ldb := by decide
theorem test_decode_stb : decode 0b01000000000000000000000000000011#32 = .ok (.stb 3) := by decide
theorem test_decode_ldd : decode 0b01010000000000000000000000001010#32 = .ok (.ldd 10) := by decide
theorem test_decode_std : decode 0b01100000000000000000000001011110#32 = .ok (.std 94) := by decide
theorem test_decode_muladd : decode 0b01110001000000000000000001001000#32 = .ok (.muladd 256 0x48) := by decide
theorem test_decode_divmod : decode 0b10000000010111100000000000000000#32 = .ok (.divmod 94) := by decide
theorem test_decode_sym : decode 0b10010000010111010000000000000000#32 = .ok (.sym 93) := by decide
theorem test_decode_dig : decode 0b10100000011000010000000000010000#32 = .ok (.dig 0x61 16) := by decide
theorem test_decode_clr : decode 0b10110000000000000000000000000000#32 = .ok .clr := by decide

/-- The illegal words of 95_test_vectors.md section 2.1. -/
theorem test_decode_refuses_illegal_words :
    ([0xC0000000, 0xD0000000, 0xE0000000, 0xF0000000, 0x02000000, 0x00000001, 0x1001005E, 0x30000001, 0x80000000,
      0x80010000, 0x81010000, 0x70010000, 0x70020100, 0x905E0000, 0x900A0001, 0xA161005E, 0xB0000001] : List Nat).all
      (fun w => (decodeTableWord 32 w).isNone) = true := by decide
/-- The reason is named: (a), (b), (c) of 30_encoding.md R97. -/
theorem test_decode_names_the_reason :
    decode 0xC0000000#32 = .error .reservedOpcode ∧ decode 0x70020100#32 = .error .mustBeZero ∧
      decode 0x905E0000#32 = .error .operandDomain := by decide
/-- The rows of spec/opcode_table.json do not overlap. -/
theorem test_rows_disjoint :
    ([.nop, .enc, .dec, .ldb, .stb, .ldd, .std, .muladd, .divmod, .sym, .dig, .clr] : List Mnemonic).Pairwise
      (fun m n => (rowOf m).bits &&& (rowOf n).mask ≠ (rowOf n).bits &&& (rowOf m).mask) := by decide
/-- 30_encoding.md R100, R101: the assembler's words and range checks. -/
theorem test_assemble :
    (assemble (.command .muladd) [256, 0x48]).map encode = some 0x71000048#32 ∧
      (assemble .shrb []).map encode = some 0x81000000#32 ∧ assemble (.command .sym) [94] = none ∧
      assemble (.command .enc) [65536] = none ∧ (assemble .enc94 []).map encode = some 0x1000005E#32 := by decide
/-- A table word is run as the first command after reset. -/
theorem test_first_command_after_reset :
    after (·.res.toNat) (step (State.reset.withFetchWord 32 0x900A0000)) = some 0x61 := by decide

/-! ## Commands (95_test_vectors.md sections 2.2 to 2.6) -/

/-- V-C3: NOP acknowledges an error. -/
theorem test_nop_acknowledges :
    after report (exec .nop { State.reset with err := .invalidCharacter, errchar := 0x61, errpos := 2 }) =
      some (0x06#32, 0, 0) := by decide
/-- V-C4: an illegal word changes only the completion registers. -/
theorem test_illegal_word :
    after (fun s => (s.statusIdle, s.acc)) (step { withWord 0xC0000000#32 with acc := 18533 }) =
      some (0x42#32, 18533) := by decide
/-- V-A3, V-A11. -/
theorem test_sym :
    after (·.res.toNat) (exec (.sym 10) State.reset) = some 0x61 ∧
      after (·.res.toNat) (exec (.sym 93) State.reset) = some 0x7E := by decide
/-- V-A12. -/
theorem test_sym_above : after report (exec (.sym 94) State.reset) = some (0x46#32, 0, 0) := by decide
/-- V-A16, V-A19. -/
theorem test_dig :
    after (·.res.toNat) (exec (.dig 0x61 16) State.reset) = some 10 ∧
      after (·.res.toNat) (exec (.dig 0x7E 94) State.reset) = some 93 := by decide
/-- V-A18, V-A24. -/
theorem test_dig_errors :
    after report (exec (.dig 0x61 10) State.reset) = some (0x26#32, 0x61, 0) ∧
      after report (exec (.dig 0x20 95) State.reset) = some (0x16#32, 0, 0) := by decide
/-- V-B1. -/
theorem test_clr : after (fun s => (s.acc, s.statusIdle)) (exec .clr (holding 255)) = some (0, 0x06#32) := by decide
/-- V-B3, V-B6, V-B7. -/
theorem test_muladd :
    after (·.acc) (exec (.muladd 256 0x65) (holding 72)) = some 18533 ∧
      after (·.acc) (exec (.muladd 2 255) (holding 18533)) = some 37321 ∧
      after (·.acc) (exec (.muladd 256 255) (holding (2 ^ 64 - 1))) = some (2 ^ 72 - 1) := by decide
/-- V-B8, V-B9, V-B12. -/
theorem test_divmod :
    after (fun s => (s.acc, s.res.toNat, s.statusIdle)) (exec (.divmod 94) (holding 255)) = some (2, 67, 0x02#32) ∧
      after (fun s => (s.acc, s.res.toNat, s.statusIdle)) (exec (.divmod 94) (holding 2)) = some (0, 2, 0x06#32) ∧
      after (fun s => (s.acc, s.res.toNat)) (exec (.divmod 256) (holding (2 ^ 32))) = some (2 ^ 24, 0) := by decide
/-- V-B13. -/
theorem test_divmod_by_one :
    after (fun s => (s.statusIdle, s.acc)) (exec (.divmod 1) (holding 18533)) = some (0x42#32, 18533) := by decide
/-- V-B14, V-B15, V-B17. -/
theorem test_ldb :
    after (·.acc) (exec .ldb (loaded [0, 1])) = some 1 ∧ after (·.acc) (exec .ldb (loaded [1, 0])) = some 256 ∧
      after (·.acc) (exec .ldb
        (loaded [0x48, 0x65, 0x6C, 0x6C, 0x6F, 0x2C, 0x20, 0x57, 0x6F, 0x72, 0x6C, 0x64, 0x21])) =
        some 5735816763073854918203775149089 := by decide
/-- V-B18, V-B19, V-B22. -/
theorem test_stb :
    after (fun s => (outputBytes s, s.acc)) (exec (.stb 0) (holding 256)) = some ([some 1, some 0], 0) ∧
      after outputBytes (exec (.stb 3) (holding 1)) = some [some 0, some 0, some 1] ∧
      after outputBytes (exec (.stb 2) (holding 65536)) = some [some 1, some 0, some 0] := by decide
/-- 93_implementation_defined.md U4: an output longer than CAP is refused. -/
theorem test_stb_too_long :
    answersNext (exec (.stb 3) { State.reset with cfg := { referenceConfig with cap := some 2 } }) = false ∧
      answersNext (exec (.stb 2) { State.reset with cfg := { referenceConfig with cap := some 2 } }) = true := by decide
/-- V-B24. -/
theorem test_ldd : after (·.acc) (exec (.ldd 10) (loaded [0, 0, 2, 5, 5])) = some 255 := by decide
/-- V-B25, V-B26. -/
theorem test_ldd_errors :
    after (fun s => (report s, s.acc)) (exec (.ldd 10) { loaded [2, 10] with acc := 7 }) =
      some ((0x36#32, 10, 1), 0) ∧
    after (fun s => (report s, s.acc)) (exec (.ldd 95) { loaded [2, 5, 5] with acc := 7 }) =
      some ((0x12#32, 0, 0), 7) := by decide
/-- V-B27, V-B29, V-B31. -/
theorem test_std :
    after outputBytes (exec (.std 94) (holding 255)) = some [some 2, some 67] ∧
      after outputBytes (exec (.std 10) (holding 0)) = some [] ∧
      after outputBytes (exec (.std 94) (holding 94)) = some [some 1, some 0] := by decide
/-- V-B30. -/
theorem test_std_bad_base :
    after (fun s => (s.statusIdle, s.acc, s.olen.toNat)) (exec (.std 1) { holding 255 with olen := 9 }) =
      some (0x12#32, 255, 0) := by decide
/-- V-E12. -/
theorem test_enc :
    after outputBytes (exec (.enc 94)
      (loaded [0x48, 0x65, 0x6C, 0x6C, 0x6F, 0x2C, 0x20, 0x57, 0x6F, 0x72, 0x6C, 0x64, 0x21])) =
      some ([0x65, 0x4C, 0x7C, 0x75, 0x2E, 0x70, 0x61, 0x74, 0x4A, 0x74, 0x58, 0x28, 0x40, 0x78, 0x57, 0x56].map some) := by
  decide
/-- V-E13, V-E15. -/
theorem test_enc_zeros_and_bad_base :
    after (fun s => (outputBytes s, s.acc)) (exec (.enc 10) { loaded [0, 0xFF] with acc := 9 }) =
      some ([some 0x30, some 0x32, some 0x35, some 0x35], 0) ∧
    after (fun s => (report s, s.acc, s.olen.toNat)) (exec (.enc 1) { loaded [0, 0xFF] with acc := 9, olen := 5 }) =
      some ((0x12#32, 0, 0), 9, 0) := by decide
/-- V-D17, V-D23. -/
theorem test_dec :
    after outputBytes (exec (.dec 11) (loaded [0x31, 0x32, 0x61, 0x34])) = some [some 0x06, some 0x97] ∧
      after outputBytes (exec (.dec 2) (loaded [0x30, 0x30, 0x31, 0x30])) = some [some 0, some 0, some 2] := by decide
/-- V-D18, V-D26. -/
theorem test_dec_errors :
    after (fun s => (report s, s.acc, s.olen.toNat)) (exec (.dec 10) { loaded [0x31, 0x61, 0x21] with acc := 9 }) =
      some ((0x26#32, 0x61, 1), 0, 0) ∧
    after (fun s => (report s, s.acc)) (exec (.dec 95) { loaded [0x20, 0x20, 0x20] with acc := 9 }) =
      some ((0x12#32, 0, 0), 9) := by decide

/-! ## Limbs (95_test_vectors.md, V-L1, V-L2, V-L3, V-L6) -/

theorem test_limb_muladd :
    muladdLimbs 32 256 0x21 [0x726C6421, 0x2C20576F, 0x656C6C6F, 0x48] =
        [0x6C642121, 0x20576F72, 0x6C6C6F2C, 0x4865] ∧
      muladdLimbs 32 256 255 [0xFFFFFFFF, 0xFFFFFFFF] = [0xFFFFFFFF, 0xFFFFFFFF, 0xFF] := by decide
theorem test_limb_divmod :
    divmodLimbs 32 94 [0x726C6421, 0x2C20576F, 0x656C6C6F, 0x48] = ([0x249F1C4C, 0x4F72BA1F, 0xC52A0127], 57) ∧
      divmodLimbs 32 94 [5] = ([], 5) := by decide

/-! ## The host's side (95_test_vectors.md section 2.6) -/

/-- V-C1: STATUS after reset. -/
theorem test_status_after_reset :
    after (·.reads) (hostAccess (.readReg 1) State.reset) = some [.reg 1 0x00000004#32] := by decide
/-- V-C5: writes to read-only registers are ignored. -/
theorem test_read_only_writes :
    after (fun s => (s.olen, s.statusIdle)) (hostAccess (.writeReg 3 7#32) State.reset) = some (0#32, 0x04#32) := by
  decide
/-- V-C7: BUSY = 1 and DONE = 0 after acceptance. -/
theorem test_busy_after_acceptance :
    after (fun s => (s.busy, s.done)) (hostAccess (.writeReg 0 0xC0000000#32) State.reset) = some (true, false) := by
  decide
/-- 30_encoding.md R102: MOVE copies the output to the input. -/
theorem test_move :
    after (fun s => (s.input.map BitVec.toNat, s.ilen.toNat))
      (hostAction .move { State.reset with obuf := cellsFrom 0 [5, 6], olen := 2 }) = some ([5, 6], 2) := by decide
/-- 20_memory.md R65: register 4 at RCE_BASE + 16, and no register at an unaligned address. -/
theorem test_bus_address :
    registerAt { referenceConfig with rceBase := some 0x1000 } 0x1010 4 = some 4 ∧
      registerAt { referenceConfig with rceBase := some 0x1000 } 0x1012 4 = none ∧
      registerAt { referenceConfig with rceBase := some 0x1000 } 0x101C 4 = none ∧
      registerAt { referenceConfig with rceBase := some 0x1000 } 0x1010 2 = none := by decide

/-! ## Witnesses: for each statement with hypotheses, concrete states and operands that meet them, at boundary values,
one for each clause -/

theorem alphabet_ok : State.reset.cfg.AlphabetOk := by decide

theorem witness_DecodeInvertsEncode :
    (Instr.muladd 2 0).wf = true ∧ (Instr.muladd 256 255).wf = true ∧ (Instr.sym 93).wf = true ∧
      decode 0x71000048#32 = .ok (.muladd 256 0x48) := by decide
theorem witness_IllegalWordsAreTheseAndOnlyComplete :
    State.reset.cmdr = none ∧ decode 0xF0000000#32 = .error .reservedOpcode ∧
      (withWord 0xF0000000#32).cmdr = some 0xF0000000#32 ∧ (withWord 0xF0000000#32).engineTurn = true := by decide
theorem witness_NopOnlyCompletes : 0x00000001#32 >>> 28 = 0#32 ∧ 0x00000000#32 >>> 28 = 0#32 := by decide
theorem witness_ClrZeroesAcc : ∃ t, exec .clr (holding 255) = .next t := exists_next (by decide)
theorem witness_MuladdMultipliesAndAdds :
    (2 ≤ (2 : BitVec 9).toNat ∧ (2 : BitVec 9).toNat ≤ 256) ∧ (2 ≤ (256 : BitVec 9).toNat ∧ (256 : BitVec 9).toNat ≤ 256) ∧
      (1 : BitVec 9).toNat < 2 ∧ 256 < (257 : BitVec 9).toNat ∧ 0x7E00FF00#32 >>> 28 = 7#32 := by decide
theorem witness_MuladdMultipliesAndAdds_next :
    (∃ t, exec (.muladd 2 255) (holding 0) = .next t) ∧ ∃ t, exec (.muladd 256 0) (holding 72) = .next t :=
  ⟨exists_next (by decide), exists_next (by decide)⟩
theorem witness_DivmodDividesBySmall :
    (2 ≤ (2 : BitVec 9).toNat ∧ (2 : BitVec 9).toNat ≤ 256) ∧ (2 ≤ (256 : BitVec 9).toNat ∧ (256 : BitVec 9).toNat ≤ 256) ∧
      (1 : BitVec 9).toNat < 2 ∧ 256 < (257 : BitVec 9).toNat ∧ 0x8000FFFF#32 >>> 28 = 8#32 := by decide
theorem witness_DivmodDividesBySmall_next :
    (∃ t, exec (.divmod 2) (holding 1) = .next t) ∧ ∃ t, exec (.divmod 256) (holding 256) = .next t :=
  ⟨exists_next (by decide), exists_next (by decide)⟩
theorem witness_LdbLoadsPositionalValue : (loaded []).InputWritten ∧ (loaded [1, 0]).InputWritten := by decide
theorem witness_StbStoresPaddedBytes :
    max (3 : BitVec 16).toNat (bigEndian 256 ({ small [] with acc := 1 } : State).acc).length ≤
      (small []).cfg.outputLimit := by
  simp [bigEndian, small, referenceConfig, Config.outputLimit, maxLen]
theorem witness_LddLoadsDigitsOrReportsFirstBad :
    (1 : BitVec 16).toNat < 2 ∧ 94 < (95 : BitVec 16).toNat ∧
      (loaded [1, 0]).InputWritten ∧ (loaded [93]).InputWritten ∧ (loaded [93, 94, 255]).InputWritten ∧
      (∀ d ∈ (loaded [1, 0]).input, d.toNat < (2 : BitVec 16).toNat) ∧
      (∀ d ∈ (loaded [93]).input, d.toNat < (94 : BitVec 16).toNat) ∧
      (loaded [93, 94, 255]).input[1]? = some 94 ∧ (94 : BitVec 16).toNat ≤ (94 : Byte).toNat ∧
      (∀ j < 1, ∀ x ∈ (loaded [93, 94, 255]).input[j]?, x.toNat < (94 : BitVec 16).toNat) := by decide
theorem witness_StdStoresDigits :
    (1 : BitVec 16).toNat < 2 ∧ 94 < (65535 : BitVec 16).toNat ∧
      (bigEndian (2 : BitVec 16).toNat ({ small [] with acc := 4 } : State).acc).length ≤ (small []).cfg.outputLimit := by
  simp [bigEndian, small, referenceConfig, Config.outputLimit, maxLen]
theorem witness_SymLooksUpSymbol : (93 : BitVec 9).toNat ≤ 93 ∧ 93 < (94 : BitVec 9).toNat := by decide
theorem witness_DigLooksUpDigit :
    (1 : BitVec 16).toNat < 2 ∧ 94 < (95 : BitVec 16).toNat ∧
      0x31#8 ∈ State.reset.cfg.alpha.take (2 : BitVec 16).toNat ∧
      0x7E#8 ∈ State.reset.cfg.alpha.take (94 : BitVec 16).toNat ∧
      0x32#8 ∉ State.reset.cfg.alpha.take (2 : BitVec 16).toNat ∧
      0x20#8 ∉ State.reset.cfg.alpha.take (94 : BitVec 16).toNat := by decide
theorem witness_EncEncodesInput :
    (1 : BitVec 16).toNat < 2 ∧ 94 < (95 : BitVec 16).toNat ∧ (small [0, 3]).InputWritten ∧
      (encoded (small [0, 3]).cfg.alpha (2 : BitVec 16).toNat (small [0, 3]).input).length ≤
        (small [0, 3]).cfg.outputLimit := by
  rw [show (small [0, 3]).input = [0, 3] by decide]
  refine ⟨by decide, by decide, by decide, ?_⟩
  simp [encoded, leading, bigEndian, positional, small, referenceConfig, Config.outputLimit, maxLen]
theorem witness_DecDecodesOrReportsFirstBad :
    (1 : BitVec 16).toNat < 2 ∧ 94 < (95 : BitVec 16).toNat ∧
      (loaded [0x31, 0x32]).InputWritten ∧ (small [0x30, 0x31, 0x31]).InputWritten ∧
      (loaded [0x31, 0x32]).input[1]? = some 0x32 ∧ 0x32#8 ∉ (loaded [0x31, 0x32]).cfg.alpha.take (2 : BitVec 16).toNat ∧
      (∀ j < 1, ∀ x ∈ (loaded [0x31, 0x32]).input[j]?,
        x ∈ (loaded [0x31, 0x32]).cfg.alpha.take (2 : BitVec 16).toNat) ∧
      (∀ c ∈ (small [0x30, 0x31, 0x31]).input, c ∈ (small [0x30, 0x31, 0x31]).cfg.alpha.take (2 : BitVec 16).toNat) ∧
      (decoded (small [0x30, 0x31, 0x31]).cfg.alpha (2 : BitVec 16).toNat (small [0x30, 0x31, 0x31]).input).length ≤
        (small [0x30, 0x31, 0x31]).cfg.outputLimit := by
  refine ⟨by decide, by decide, by decide, by decide, by decide, by decide, by decide, by decide, ?_⟩
  rw [show (small [0x30, 0x31, 0x31]).input = [0x30, 0x31, 0x31] by decide, decoded,
    show ([0x30, 0x31, 0x31] : List Byte).map (small [0x30, 0x31, 0x31]).cfg.alpha.idxOf = [0, 1, 1] by decide,
    show (([0x30, 0x31, 0x31] : List Byte).takeWhile
      (fun c => (small [0x30, 0x31, 0x31]).cfg.alpha.idxOf c == 0)).length = 1 by decide]
  simp [bigEndian, positional, small, referenceConfig, Config.outputLimit, maxLen, Finset.sum_range_succ]
theorem witness_EmptyInputGivesEmptyOutput :
    (loaded []).ilen = 0 ∧ 2 ≤ (2 : BitVec 16).toNat ∧ (94 : BitVec 16).toNat ≤ 94 ∧ (1 : BitVec 16).toNat < 2 ∧
      94 < (95 : BitVec 16).toNat := by decide
theorem witness_InputIsTheCellsBelowIlen :
    0 < (loaded [7]).ilen.toNat ∧ (loaded [7]).ibuf.read 0 = some 7 ∧ (loaded [7]).ilen.toNat ≤ 1 ∧
      1 < ({ loaded [7] with ilen := 2 } : State).ilen.toNat ∧ ({ loaded [7] with ilen := 2 } : State).ibuf.read 1 = none := by
  decide
theorem witness_DecOfEncRestoresInput :
    (loaded [0, 255]).cfg.AlphabetOk ∧ (2 : BitVec 16).toNat ≤ 94 ∧ (∃ t, exec (.enc 2) (loaded [0, 255]) = .next t) ∧
      ∃ t, exec (.enc 94) (loaded [0, 255]) = .next t :=
  ⟨alphabet_ok, by decide, exists_next (by decide), exists_next (by decide)⟩
theorem witness_EncOfDecRestoresString :
    (loaded [0x30, 0x31]).cfg.AlphabetOk ∧ (loaded [0x30, 0x31]).ilen.toNat ≤ (loaded [0x30, 0x31]).cfg.outputLimit ∧
      (∃ t, exec (.dec 2) (loaded [0x30, 0x31]) = .next t ∧ t.err = .ok) ∧
      ∃ t, exec (.dec 94) (loaded [0x30, 0x31]) = .next t ∧ t.err = .ok :=
  ⟨alphabet_ok, by decide, exists_next_with (by decide), exists_next_with (by decide)⟩
theorem witness_OnlyZerosConvertOneForOne :
    (loaded [0x30, 0x30]).cfg.AlphabetOk ∧ (∀ x ∈ (loaded [0, 0]).input, x = 0) ∧
      (∃ t, exec (.enc 2) (loaded [0, 0]) = .next t) ∧
      (∀ x ∈ (loaded [0x30, 0x30]).input, x = (loaded [0x30, 0x30]).cfg.alpha.getD 0 0) ∧
      ∃ t, exec (.dec 94) (loaded [0x30, 0x30]) = .next t :=
  ⟨alphabet_ok, by decide, exists_next (by decide), by decide, exists_next (by decide)⟩
theorem witness_EncOutputLength :
    (loaded [0, 1]).cfg.AlphabetOk ∧ (∃ t, exec (.enc 2) (loaded [0, 1]) = .next t) ∧
      positional 256 ((loaded [0, 1]).input.map (·.toNat)) ≠ 0 ∧ (∃ t, exec (.enc 94) (loaded [0]) = .next t) ∧
      positional 256 ((loaded [0]).input.map (·.toNat)) = 0 := by
  refine ⟨alphabet_ok, exists_next (by decide), ?_, exists_next (by decide), ?_⟩
  · rw [show (loaded [0, 1]).input = [0, 1] by decide]; simp [positional, Finset.sum_range_succ]
  · rw [show (loaded [0]).input = [0] by decide]; simp [positional]
theorem witness_DecOutputNoLongerThanInput :
    (loaded [0x30, 0x31]).cfg.AlphabetOk ∧
      ∃ t, exec (.dec 2) (loaded [0x30, 0x31]) = .next t ∧ t.err = .ok ∧
        leading ((loaded [0x30, 0x31]).cfg.alpha.getD 0 0) (loaded [0x30, 0x31]).input < t.olen.toNat :=
  ⟨alphabet_ok, exists_next_with (p := fun t => t.err = .ok ∧
    leading ((loaded [0x30, 0x31]).cfg.alpha.getD 0 0) (loaded [0x30, 0x31]).input < t.olen.toNat) (by decide)⟩
theorem witness_EncWritesOnlySymbolsOfTheBase :
    (loaded [5]).cfg.AlphabetOk ∧ ∃ t, exec (.enc 2) (loaded [5]) = .next t ∧ t.obuf.read 0 = some 0x31 :=
  ⟨alphabet_ok, exists_next_with (by decide)⟩
theorem witness_SmallerBaseNeverShorter :
    (∃ t, exec (.enc 2) (loaded [5]) = .next t) ∧ ∃ u, exec (.enc 94) (loaded [5]) = .next u :=
  ⟨exists_next (by decide), exists_next (by decide)⟩
theorem witness_ConversionsAreInverse :
    ((2 ≤ 2 ∧ 2 ≤ 94) ∨ 2 = 256) ∧ (∀ d ∈ [1, 0], d < 2) ∧ (∀ d ∈ [1, 0].head?, d ≠ 0) ∧
      ∀ x ∈ ([1, 0] : List Byte).head?, x ≠ 0 := by decide
theorem witness_StbAfterLdbRestoresInput :
    (loaded [0, 5]).ilen.toNat = (2 : BitVec 16).toNat ∧ (2 : BitVec 16).toNat ≤ (loaded [0, 5]).cfg.outputLimit ∧
      ∃ t, exec .ldb (loaded [0, 5]) = .next t := ⟨by decide, by decide, exists_next (by decide)⟩
theorem witness_StdAfterLddRestoresDigits :
    (loaded [93, 0]).ilen.toNat ≤ (loaded [93, 0]).cfg.outputLimit ∧ (∀ d ∈ (loaded [93, 0]).input.head?, d ≠ 0) ∧
      ∃ t, exec (.ldd 94) (loaded [93, 0]) = .next t ∧ t.err = .ok := ⟨by decide, by decide, exists_next_with (by decide)⟩
theorem witness_LimbMuladdRefinesMuladd : limbNormal 1 [1, 0, 1] = true ∧ limbNormal 8 [255, 255] = true := by decide
theorem witness_LimbDivmodRefinesDivmod : limbNormal 1 [1, 0, 1] = true ∧ limbNormal 32 [5] = true := by decide
theorem witness_LookupsAreInverse :
    referenceConfig.AlphabetOk ∧ digitFor referenceConfig 0x7E 94 = some 93 ∧ digitFor referenceConfig 0x31 2 = some 1 :=
  ⟨alphabet_ok, by decide, by decide⟩
theorem witness_DigOfSymRestoresDigit :
    State.reset.cfg.AlphabetOk ∧ (93 : BitVec 9).toNat < (94 : BitVec 16).toNat ∧ (1 : BitVec 9).toNat < (2 : BitVec 16).toNat ∧
      (∃ t, exec (.sym 93) State.reset = .next t) ∧ ∃ t, exec (.sym 1) State.reset = .next t :=
  ⟨alphabet_ok, by decide, by decide, exists_next (by decide), exists_next (by decide)⟩
theorem witness_NoStepChangesTheAlphabet :
    ∃ t, step (State.reset.withFetchWord 32 0xB0000000) = .next t := exists_next (by decide)
theorem witness_AcceptanceLatchesTheWord :
    State.reset.cmdr = none ∧ (withWord 0xB0000000#32).cmdr = some 0xB0000000#32 := by decide
theorem witness_StepRunsDecodedCommand :
    (withWord 0xB0000000#32).engineTurn = true ∧ decode 0xB0000000#32 = .ok .clr ∧
      decode 0xB0000001#32 = .error .mustBeZero ∧ (withWord 0xB0000001#32).engineTurn = true ∧
      ({ withWord 0xB0000000#32 with host := [⟨false, .reset⟩] } : State).engineTurn = false ∧
      State.reset.host = [] := by decide
theorem witness_CompletionSetsTheCompletionRegisters :
    ∃ t, exec (.enc 1) (holding 5) = .next t ∧ t.err ≠ .invalidCharacter ∧ t.err ≠ .invalidDigit :=
  exists_next_with (p := fun t => t.err ≠ .invalidCharacter ∧ t.err ≠ .invalidDigit) (by decide)
theorem witness_CommandsLeaveInputAlone : ∃ t, exec (.enc 94) (loaded [7]) = .next t := exists_next (by decide)
theorem witness_ResWrittenOnlyByThree :
    (∃ t, exec (.divmod 2) (holding 5) = .next t ∧ t.res ≠ (holding 5).res) ∧
      (∃ t, exec (.sym 93) State.reset = .next t ∧ t.err = .ok) ∧
      ∃ t, exec (.dig 0x7E 94) State.reset = .next t ∧ t.err = .ok :=
  ⟨exists_next_with (by decide), exists_next_with (by decide), exists_next_with (by decide)⟩
theorem witness_OutputWrittenOnlyByFour :
    (∃ t, exec (.sym 0) State.reset = .next t) ∧ (∃ t, exec (.stb 2) (holding 5) = .next t ∧ t.err = .ok) ∧
      (∃ t, exec (.std 95) (holding 5) = .next t ∧ t.err ≠ .ok) ∧
      (loaded [0x30, 0x31]).InputWritten ∧ (∃ t, exec (.enc 94) (loaded [0x30, 0x31]) = .next t ∧ t.err = .ok) ∧
      (∃ t, exec (.dec 2) (loaded [0x30, 0x31]) = .next t ∧ t.err = .ok) ∧
      ∃ t, exec (.std 94) (holding 5) = .next t ∧ t.err = .ok :=
  ⟨exists_next (by decide), exists_next_with (by decide), exists_next_with (by decide), by decide,
    exists_next_with (by decide), exists_next_with (by decide), exists_next_with (by decide)⟩
theorem witness_CommandsDependOnlyOnTheirOperands :
    (loaded [5]).input = ({ loaded [5] with ibuf := cellsFrom 0 [5, 9], reads := [.obuf 0 1], acc := 3 } : State).input ∧
      (∃ t, exec (.enc 94) (loaded [5]) = .next t ∧ t.err ≠ .invalidBase) ∧
      ∃ t, exec (.enc 94) { loaded [5] with ibuf := cellsFrom 0 (loaded [5]).input } = .next t :=
  ⟨by decide, exists_next_with (by decide), exists_next (by decide)⟩
/-- The last clause at an input with a cell never written: the command completes on it with its cells written. -/
theorem witness_CommandsDependOnlyOnTheirOperands_unwritten :
    ¬ ({ loaded [] with ilen := 1 } : State).InputWritten ∧
      ∃ t, exec .ldb { ({ loaded [] with ilen := 1 } : State) with
        ibuf := cellsFrom 0 ({ loaded [] with ilen := 1 } : State).input } = .next t := ⟨by decide, _, rfl⟩
theorem witness_AcceptedCommandCompletes :
    ({ withWord 0x6000005E#32 with
        host := [⟨false, .access (.readReg 1)⟩, ⟨true, .out⟩] } : State).host =
        List.replicate 1 ⟨false, .access (.readReg 1)⟩ ++ [⟨true, .out⟩] ∧
      (∀ turn ∈ ([⟨true, .out⟩] : List HostTurn).head?, turn.waits = true) ∧
      (withWord 0x6000005E#32).cmdr = some 0x6000005E#32 ∧ decode 0x6000005E#32 = .ok (.std 94) ∧
      outputLength (.std 94) (withWord 0x6000005E#32) ≤ (withWord 0x6000005E#32).cfg.outputLimit := by decide
theorem witness_CompletionCodesByCommand :
    (∃ t, exec (.dig 0x20 94) State.reset = .next t ∧ t.err = .invalidCharacter) ∧
      mayComplete .dig .invalidCharacter = true := ⟨exists_next_with (by decide), by decide⟩
theorem witness_InvalidBaseExactlyOutsideTheRange :
    (∃ t, exec (.std 1) (holding 5) = .next t ∧ t.err = .invalidBase) ∧
      ∃ t, exec (.dig 0x20 95) State.reset = .next t ∧ t.err = .invalidBase :=
  ⟨exists_next_with (by decide), exists_next_with (by decide)⟩
theorem witness_FailureLeavesNoPartialOutput :
    (∃ t, exec (.dec 94) (loaded [0x20]) = .next t ∧ t.err ≠ .ok) ∧ (∃ t, exec (.stb 0) State.reset = .next t) ∧
      (∃ t, runWord 0xC0000000#32 (withWord 0xC0000000#32) = .next t) ∧ ∃ t, exec (.ldd 2) (loaded [2]) = .next t :=
  ⟨exists_next_with (by decide), exists_next (by decide), exists_next (by decide), exists_next (by decide)⟩
theorem witness_AccAndResAfterFailure :
    (∃ t, exec (.enc 0) (holding 5) = .next t ∧ t.err = .invalidBase) ∧
      (∃ t, exec (.dec 94) (loaded [0x20]) = .next t ∧ t.err = .invalidCharacter) ∧
      (∃ t, exec (.ldd 2) (loaded [2]) = .next t ∧ t.err = .invalidDigit) ∧
      (∃ t, exec (.dig 0x20 2) (holding 5) = .next t ∧ t.err = .invalidCharacter) ∧
      (∃ t, runWord 0x80010000#32 (holding 5) = .next t ∧ t.err = .illegalCommand) ∧
      ∃ t, runWord 0x20000001#32 (holding 5) = .next t ∧ t.err ≠ .ok :=
  ⟨exists_next_with (by decide), exists_next_with (by decide), exists_next_with (by decide),
    exists_next_with (by decide), exists_next_with (by decide), exists_next_with (by decide)⟩
theorem witness_CommandsStopOnlyForTooLongOutput :
    outputLength (.stb 3) (small []) ≤ (small []).cfg.outputLimit ∧
      ¬ outputLength (.stb 4) (small []) ≤ (small []).cfg.outputLimit := by decide
theorem witness_BoundedInputIsNeverRefused :
    8 * ({ loaded [5] with cfg := { referenceConfig with cap := some 8 } } : State).ilen.toNat ≤
        ({ loaded [5] with cfg := { referenceConfig with cap := some 8 } } : State).cfg.outputLimit ∧
      (small [5, 6, 7]).ilen.toNat ≤ (small [5, 6, 7]).cfg.outputLimit ∧
      (3 : BitVec 16).toNat ≤ (small [5, 6, 7]).cfg.outputLimit ∧ ∃ t, exec .ldb (small [5, 6, 7]) = .next t :=
  ⟨by decide, by decide, by decide, exists_next (by decide)⟩
theorem witness_StatusWordHasItsFields :
    State.reset.cmdr = none ∧ (withWord 0#32).cmdr = some 0#32 ∧ (∃ t, runWord 0#32 (withWord 0#32) = .next t) ∧
      ∃ t, hostAccess (.writeReg 0 0#32) State.reset = .next t :=
  ⟨by decide, by decide, exists_next (by decide), exists_next (by decide)⟩
theorem witness_OnlyStatusIsReadableWhileBusy :
    (withWord 0#32).cmdr = some 0#32 ∧ (HostAccess.readReg 0 ≠ .readReg 1) ∧ (HostAccess.readReg 2 ≠ .readReg 1) ∧
      registerAt (withWord 0#32).cfg 4 4 ≠ some 1 := by decide
theorem witness_RegisterReadsReturnTheRegisters :
    State.reset.cmdr = none ∧ (withWord 0#32).cmdr = some 0#32 ∧ 2 ≤ 2 ∧ 2 ≤ 6 ∧ 6 ≤ 6 := by decide
theorem witness_RegisterWritesByNumber :
    (small []).cmdr = none ∧ (∀ c ∈ (small []).cfg.cap, (3 : Word).toNat ≤ c) ∧
      (withWord 0#32).cmdr = some 0#32 := by decide
theorem witness_NoSuchRegisterAndNoSuchLength :
    (small []).cmdr = none ∧ 3 ∈ (small []).cfg.cap ∧ 3 < (4 : Word).toNat := by decide
theorem witness_BufferAccessesMoveOneCell :
    (small [7]).cmdr = none ∧ (∀ c ∈ (small [7]).cfg.cap, 2 < c) ∧ (small [7]).ibuf.read 0 = some 7 ∧
      (small [7]).ibuf.read 2 = none ∧ (small [7]).ibuf.wf = true ∧
      0 < ({ small [] with obuf := cellsFrom 0 [9], olen := 1 } : State).olen.toNat ∧
      ({ small [] with obuf := cellsFrom 0 [9], olen := 1 } : State).obuf.read 0 = some 9 ∧
      (small [7]).olen.toNat ≤ 0 ∧ 3 ∈ (small [7]).cfg.cap := by decide
theorem witness_BusAddressesNameTheRegisters :
    ({ referenceConfig with rceBase := some 0x1000 } : Config).rceBase = some 0x1000 ∧ State.reset.cmdr = none ∧
      State.reset.cfg.rceBase = none ∧ 0x101A ≠ 0x1000 + 4 * 6 := by decide
theorem witness_HostActionsMoveSequences :
    (small []).cmdr = none ∧ ([1, 2, 3] : List Byte).length < 2 ^ 32 ∧
      (∀ c ∈ (small []).cfg.cap, ([1, 2, 3] : List Byte).length ≤ c) ∧
      ({ small [] with obuf := cellsFrom 0 [1, 2, 3], olen := 3 } : State).obuf = cellsFrom 0 [1, 2, 3] ∧
      ({ small [] with obuf := cellsFrom 0 [1, 2, 3], olen := 3 } : State).olen.toNat = ([1, 2, 3] : List Byte).length := by
  decide
theorem witness_HostCallsReturnTheOutput :
    (small []).cmdr = none ∧ ([0x30, 0x31] : List Byte).length < 2 ^ 32 ∧
      (∀ c ∈ (small []).cfg.cap, ([0x30, 0x31] : List Byte).length ≤ c) ∧
      (∀ c ∈ ([0x30, 0x31] : List Byte), c ∈ (small []).cfg.alpha.take (2 : BitVec 16).toNat) ∧
      (encoded (small []).cfg.alpha (94 : BitVec 16).toNat [0, 5]).length ≤ (small []).cfg.outputLimit ∧
      (decoded (small []).cfg.alpha (2 : BitVec 16).toNat [0x30, 0x31]).length ≤ (small []).cfg.outputLimit ∧
      ({ small [] with host := turnsIn [0, 5] ++ [turnCmd (.enc 94), ⟨true, .out⟩] } : State).host =
        turnsIn [0, 5] ++ turnCmd (.enc 94) :: ⟨true, .out⟩ :: [] := by
  refine ⟨by decide, by decide, by decide, by decide, ?_, ?_, rfl⟩
  · simp [encoded, leading, bigEndian, positional, small, referenceConfig, Config.outputLimit, maxLen]
  · rw [decoded, show ([0x30, 0x31] : List Byte).map (small []).cfg.alpha.idxOf = [0, 1] by decide,
      show (([0x30, 0x31] : List Byte).takeWhile (fun c => (small []).cfg.alpha.idxOf c == 0)).length = 1 by decide]
    simp [bigEndian, positional, small, referenceConfig, Config.outputLimit, maxLen, Finset.sum_range_succ]
theorem witness_ResetStateValues :
    ∃ t, hostAction .reset (withWord 0x6000005E#32) = .next t := exists_next (by decide)
theorem witness_ResetInputGivesTheResetState :
    ∃ t, hostAction .reset { withWord 0x6000005E#32 with acc := 7 } = .next t := exists_next (by decide)
theorem witness_ResetMeetsTheInvariant :
    referenceConfig.Ok ∧ (small []).cfg.CapOk ∧ ({ referenceConfig with rceBase := some 0x1000 } : Config).BaseOk :=
  ⟨⟨alphabet_ok, by decide, by decide⟩, by decide, by decide⟩
/-- The state after reset with NOP accepted meets the invariant, and its step answers a next state. -/
theorem witness_StepKeepsTheInvariant :
    (withWord 0#32).Inv ∧ ∃ t, step (withWord 0#32) = .next t :=
  ⟨{ config := ⟨alphabet_ok, by decide, by decide⟩
     ibufCanonical := by decide
     ibufWithinCap := fun _ _ _ => rfl
     ilenWithinCap := by decide
     obufCanonical := by decide
     obufIsOutput := fun _ => rfl
     olenWithinLimit := by decide
     recordsNothing := by decide
     inProgress := by decide }, exists_next (by decide)⟩

end Sys2Proof.Tests
end

section
/-! PROOFS. The state (10_state.md): what every command can leave behind, said once, and from it who writes RES (R23),
who writes OLEN and OBUF (R33), the fields of STATUS (R29) and the values after reset (R42). -/

namespace Sys2Proof.Proofs

open Sys2Proof Sys2Proof.Machine Sys2Proof.Laws

/-! ## What a completed command leaves: the inversion of exec -/

/-- The commands that write OLEN and OBUF (10_state.md R33). -/
def writesOutput : Mnemonic → Bool
  | .enc | .dec | .stb | .std => true
  | _ => false

/-- The commands that write RES (10_state.md R23). -/
def writesRes : Mnemonic → Bool
  | .divmod | .sym | .dig => true
  | _ => false

theorem writesOutput_iff {m : Mnemonic} :
    writesOutput m = true ↔ m = .enc ∨ m = .dec ∨ m = .stb ∨ m = .std := by
  cases m <;> simp [writesOutput]

theorem writesRes_iff {m : Mnemonic} : writesRes m = true ↔ m = .divmod ∨ m = .sym ∨ m = .dig := by
  cases m <;> simp [writesRes]

/-- The output that an output command leaves when it succeeds, in the closed forms of 41_encoder.md R141, 42_decoder.md
R156 and 43_bigint.md R175 and R177. -/
def outputOf : Instr → State → List Byte
  | .enc b, s => encoded s.cfg.alpha b.toNat s.input
  | .dec b, s => decoded s.cfg.alpha b.toNat s.input
  | .stb m, s => List.replicate (m.toNat - (bigEndian 256 s.acc).length) 0 ++ (bigEndian 256 s.acc).map (BitVec.ofNat 8)
  | .std n, s => (bigEndian n.toNat s.acc).map (BitVec.ofNat 8)
  | _, _ => []

/-- How a command can complete: with new values of ACC and RES, with a whole output and ACC = 0, or with an error. -/
inductive CommandOutcome (i : Instr) (s : State) : State → Prop
  | computed (acc : Nat) (res : Byte) (quiet : writesOutput i.mnemonic = false)
      (keepsRes : writesRes i.mnemonic = false → res = s.res) :
      CommandOutcome i s { s with acc := acc, res := res }.succeed
  | stored (writes : writesOutput i.mnemonic = true) (length_eq : (outputOf i s).length = outputLength i s)
      (fits : (outputOf i s).length ≤ s.cfg.outputLimit) :
      CommandOutcome i s ({ s with acc := 0 }.setOutput (outputOf i s) (outputOf i s).length).succeed
  | failed (m : Option Mnemonic) (e : Raised) (drops : dropsOutput m e = writesOutput i.mnemonic) :
      CommandOutcome i s (raise m e s)

theorem code_ne_ok (e : Raised) : e.code ≠ .ok := by cases e <;> simp [Raised.code]

/-- Writing exactly the output of a command stores it. -/
theorem stored_of_emit {i : Instr} {s t : State} {z : Nat} {pad : Byte} {body : List Byte}
    (writes : writesOutput i.mnemonic = true) (out_eq : outputOf i s = List.replicate z pad ++ body)
    (length_eq : outputLength i s = z + body.length) (h : emit z pad body { s with acc := 0 } = .next t) :
    CommandOutcome i s t := by
  have len : (outputOf i s).length = z + body.length := by simp [out_eq]
  obtain ⟨fits, rfl⟩ := emit_eq_next.1 h
  rw [← len, ← out_eq]
  exact .stored writes (len.trans length_eq.symm) (len.trans_le fits)

theorem enc_outcome {b : BitVec 16} {s t : State} (h : exec (.enc b) s = .next t) : CommandOutcome (.enc b) s t := by
  simp only [exec, execEnc] at h
  split at h
  · next hb => exact stored_of_emit rfl (encoded_eq (legalBase_iff.1 hb).1 s.input) (by simp [outputLength, hb]) h
  · cases h; exact .failed _ _ rfl

/-- The digits of a string that DEC accepts are the indices of its characters (42_decoder.md R156). -/
theorem digits_eq_idxOf_of_scan {cfg : Config} {b pos : Nat} {x : List Byte} {ds : List Nat}
    (h : scan (fun c => digitFor cfg c b) pos x = .ok ds) : ds = x.map cfg.alpha.idxOf := by
  have hmap := scan_eq_ok.1 h
  have valid : ∀ c ∈ x, c ∈ cfg.alpha.take b := fun c hc => by
    obtain ⟨d, -, hd⟩ := List.mem_map.1 (hmap ▸ List.mem_map_of_mem hc)
    exact digitFor_isSome.1 (by simp [← hd])
  simpa [h] using scan_symbols (pos := pos) valid

theorem dec_outcome {b : BitVec 16} {s t : State} (h : exec (.dec b) s = .next t) : CommandOutcome (.dec b) s t := by
  simp only [exec, execDec] at h
  split at h
  · next hb =>
    split at h
    · cases h; exact .failed _ _ rfl
    · next ds hs =>
      have hds := digits_eq_idxOf_of_scan hs
      exact stored_of_emit rfl (hds ▸ decoded_eq s.cfg.alpha b.toNat s.input) (by simp [outputLength, hb, hs]) h
  · cases h; exact .failed _ _ rfl

theorem stb_outcome {m : BitVec 16} {s t : State} (h : exec (.stb m) s = .next t) : CommandOutcome (.stb m) s t := by
  have len : (bigEndian 256 s.acc).length = (toBase256 s.acc).length := by simp [← bigEndian_256]
  refine stored_of_emit rfl ?_ ?_ h
  · simp only [outputOf, bigEndian_256, len]
  · simp only [outputLength]; omega

theorem std_outcome {n : BitVec 16} {s t : State} (h : exec (.std n) s = .next t) : CommandOutcome (.std n) s t := by
  simp only [exec, execStd] at h
  split at h
  · next hn =>
    exact stored_of_emit rfl (by simp [outputOf, bigEndian_eq_digitsOf (legalBase_iff.1 hn).1])
      (by simp [outputLength, hn]) h
  · cases h; exact .failed _ _ rfl

/-- Every command that answers a next state completed in one of the three ways. -/
theorem exec_outcome {i : Instr} {s t : State} (h : exec i s = .next t) : CommandOutcome i s t := by
  cases i with
  | nop => cases h; exact .computed _ _ rfl fun _ => rfl
  | clr => cases h; exact .computed _ _ rfl fun _ => rfl
  | ldb => cases h; exact .computed _ _ rfl fun _ => rfl
  | enc b => exact enc_outcome h
  | dec b => exact dec_outcome h
  | stb m => exact stb_outcome h
  | std n => exact std_outcome h
  | muladd m a =>
    simp only [exec, execMuladd] at h
    split at h <;> cases h
    · exact .computed _ _ rfl fun _ => rfl
    · exact .failed _ _ rfl
  | divmod d =>
    simp only [exec, execDivmod] at h
    split at h <;> cases h
    · exact .computed _ _ rfl nofun
    · exact .failed _ _ rfl
  | sym d =>
    simp only [exec, execSym] at h
    split at h <;> cases h
    · exact .computed _ _ rfl nofun
    · exact .failed _ _ rfl
  | dig c b =>
    simp only [exec, execDig] at h
    split at h
    · split at h <;> cases h
      · exact .failed _ _ rfl
      · exact .computed _ _ rfl nofun
    · cases h; exact .failed _ _ rfl
  | ldd n =>
    simp only [exec, execLdd] at h
    split at h
    · split at h <;> cases h
      · exact .failed _ _ rfl
      · exact .computed _ _ rfl fun _ => rfl
    · cases h; exact .failed _ _ rfl

/-! ## Host accesses while the engine is idle or busy -/

theorem hostAccess_of_idle {s : State} (a : HostAccess) (idle : s.cmdr = none) : hostAccess a s = accessIdle a s := by
  simp [hostAccess, busy_eq_false.2 idle]

theorem hostAccess_of_busy {s : State} {w : Word} (a : HostAccess) (busy : s.cmdr = some w) :
    hostAccess a s = accessBusy a s := by
  simp [hostAccess, busy_eq_true.2, busy]

/-! ## RES (10_state.md R23) -/

/-- A command that changes RES writes it and completes with code 0 (10_state.md R23). -/
theorem res_changed {i : Instr} {s t : State} (h : exec i s = .next t) (changed : t.res ≠ s.res) :
    t.err = .ok ∧ writesRes i.mnemonic = true := by
  cases exec_outcome h with
  | computed acc res _ keepsRes =>
    refine ⟨rfl, ?_⟩
    by_contra hw
    exact changed (keepsRes (by simpa using hw))
  | stored => exact absurd rfl changed
  | failed m e => exact absurd (raise_res m e s) changed

/-- DIVMOD leaves the remainder in RES, where it fits (43_bigint.md R173). -/
theorem res_of_divmod {d : BitVec 9} {s t : State} (h : exec (.divmod d) s = .next t) (ok : t.err = .ok) :
    t.res.toNat = s.acc % d.toNat := by
  simp only [exec, execDivmod] at h
  split at h <;> cases h
  · next hd =>
    obtain ⟨two_le, le_256⟩ := legalRadix_iff.1 hd
    have lt : s.acc % d.toNat < d.toNat := Nat.mod_lt _ (by omega)
    exact Nat.mod_eq_of_lt (by omega)
  · simp [Raised.code] at ok

/-- SYM leaves the symbol of the digit in RES (40_alphabet.md R125). -/
theorem res_of_sym {d : BitVec 9} {s t : State} (h : exec (.sym d) s = .next t) (ok : t.err = .ok) :
    t.res = s.cfg.alpha.getD d.toNat 0 := by
  simp only [exec, execSym] at h
  split at h <;> cases h
  · rfl
  · simp [Raised.code] at ok

/-- DIG leaves in RES the place of the character in the alphabet, below the base and so at most 93
(40_alphabet.md R126). -/
theorem res_of_dig {c : BitVec 8} {b : BitVec 16} {s t : State} (h : exec (.dig c b) s = .next t) (ok : t.err = .ok) :
    s.cfg.alpha[t.res.toNat]? = some c ∧ t.res.toNat ≤ 93 := by
  simp only [exec, execDig] at h
  split at h
  · next hb =>
    split at h <;> cases h
    · simp [Raised.code] at ok
    · next i hi =>
      obtain ⟨mem, rfl, lt⟩ := digitFor_eq_some.1 hi
      have le : s.cfg.alpha.idxOf c ≤ 93 := by have := (legalBase_iff.1 hb).2; omega
      have res_eq : (BitVec.ofNat 8 (s.cfg.alpha.idxOf c)).toNat = s.cfg.alpha.idxOf c :=
        Nat.mod_eq_of_lt (by omega)
      simp only [succeed_res, res_eq]
      exact ⟨List.getElem?_idxOf mem, le⟩
  · cases h; simp [Raised.code] at ok

/-- Settles O38: only `res_changed` needs all commands; the three results are one lemma each. -/
theorem resWrittenOnlyByThree : Obligations.ResWrittenOnlyByThree := by
  refine ⟨fun i s t h changed => ?_, fun i s t h ok => ⟨?_, ?_, ?_⟩, fun s idle => ?_⟩
  · exact (res_changed h changed).imp_right writesRes_iff.1
  · rintro d rfl; exact res_of_divmod h ok
  · rintro d rfl; exact res_of_sym h ok
  · rintro c b rfl; exact res_of_dig h ok
  · rw [hostAccess_of_idle _ idle]; rfl

/-! ## OLEN and OBUF (10_state.md R33) -/

/-- A command that writes no output leaves OLEN and OBUF as they were, also by an error (60_exceptions.md R237). -/
theorem output_kept {i : Instr} {s t : State} (h : exec i s = .next t) (quiet : writesOutput i.mnemonic = false) :
    t.olen = s.olen ∧ t.obuf = s.obuf := by
  cases exec_outcome h with
  | computed => exact ⟨rfl, rfl⟩
  | stored writes => simp [writes] at quiet
  | failed m e drops => simp [drops, quiet]

/-- An output command that succeeds leaves its output and the output's length. -/
theorem output_of_ok {i : Instr} {s t : State} (h : exec i s = .next t) (writes : writesOutput i.mnemonic = true)
    (ok : t.err = .ok) :
    t.obuf = cellsFrom 0 (outputOf i s) ∧ t.olen.toNat = (outputOf i s).length ∧
      (outputOf i s).length = outputLength i s := by
  cases exec_outcome h with
  | computed _ _ quiet => simp [writes] at quiet
  | stored _ length_eq fits => exact ⟨rfl, toNat_ofNat_of_le_limit fits, length_eq⟩
  | failed m e => exact absurd ((raise_err m e s).symm.trans ok) (code_ne_ok e)

/-- An output command that fails leaves no output (60_exceptions.md R237). -/
theorem output_of_error {i : Instr} {s t : State} (h : exec i s = .next t) (writes : writesOutput i.mnemonic = true)
    (failed : t.err ≠ .ok) : t.olen = 0 ∧ t.obuf = [] := by
  cases exec_outcome h with
  | computed | stored => exact absurd rfl failed
  | failed m e drops => simp [drops, writes]

/-- Cell by cell, OBUF holds the output after a success of an output command. -/
theorem read_obuf_of_ok {i : Instr} {s t : State} (h : exec i s = .next t) (writes : writesOutput i.mnemonic = true)
    (ok : t.err = .ok) (k : Nat) : t.obuf.read k = (outputOf i s)[k]? := by
  obtain ⟨obuf_eq, -, -⟩ := output_of_ok h writes ok
  rw [obuf_eq, read_cellsFrom_zero]

/-- Settles O39: the outcome of a command decides each clause, and the closed forms are `outputOf` unfolded. -/
theorem outputWrittenOnlyByFour : Obligations.OutputWrittenOnlyByFour := by
  refine ⟨fun i s t h enc dec stb std => ?_, fun i s t h four => ⟨fun ok => ?_, fun failed => ?_⟩,
    fun i s t k h ok => ⟨?_, ?_, ?_, ?_⟩, fun v s idle => ?_⟩
  · have quiet : writesOutput i.mnemonic = false := by
      rw [← Bool.not_eq_true, writesOutput_iff]; tauto
    obtain ⟨olen_eq, obuf_eq⟩ := output_kept h quiet
    exact ⟨olen_eq, fun k => by rw [obuf_eq]⟩
  · obtain ⟨obuf_eq, olen_eq, length_eq⟩ := output_of_ok h (writesOutput_iff.2 four) ok
    refine ⟨olen_eq.trans length_eq, fun k => ?_⟩
    rw [obuf_eq, olen_eq, read_cellsFrom_zero, Bool.eq_iff_iff]
    simp
  · obtain ⟨olen_eq, obuf_eq⟩ := output_of_error h (writesOutput_iff.2 four) failed
    exact ⟨olen_eq, fun k => by rw [obuf_eq, read_nil]⟩
  · rintro b rfl -; exact read_obuf_of_ok h rfl ok k
  · rintro b rfl -; exact read_obuf_of_ok h rfl ok k
  · rintro m rfl; exact read_obuf_of_ok h rfl ok k
  · rintro n rfl; exact read_obuf_of_ok h rfl ok k
  · rw [hostAccess_of_idle _ idle]; rfl

/-! ## STATUS (10_state.md R28, R29) -/

section Status
variable (busy done zero : Bool) (err : BitVec 4)

theorem statusOf_bit_busy : (statusOf busy done zero err).getLsbD 0 = busy := by
  simp only [statusOf, BitVec.getLsbD_append]; simp

theorem statusOf_bit_done : (statusOf busy done zero err).getLsbD 1 = done := by
  simp only [statusOf, BitVec.getLsbD_append]; simp

theorem statusOf_bit_zero : (statusOf busy done zero err).getLsbD 2 = zero := by
  simp only [statusOf, BitVec.getLsbD_append]; simp

theorem statusOf_bit_reserved : (statusOf busy done zero err).getLsbD 3 = false := by
  simp only [statusOf, BitVec.getLsbD_append]; simp

/-- From bit 4 on the STATUS word is ERR and zeros above it (10_state.md R29). -/
theorem statusOf_bit_add_four (k : Nat) : (statusOf busy done zero err).getLsbD (k + 4) = err.getLsbD k := by
  simp only [statusOf, BitVec.getLsbD_append]
  simpa using BitVec.lt_of_getLsbD

/-- ERR is bits 7:4 of STATUS (10_state.md R29). -/
theorem statusOf_err : (statusOf busy done zero err).extractLsb' 4 4 = err := by
  refine BitVec.eq_of_getLsbD_eq fun k hk => ?_
  rw [BitVec.getLsbD_extractLsb', Nat.add_comm, statusOf_bit_add_four]
  simp [hk]

/-- Bits 31:8 of STATUS are zero (10_state.md R29). -/
theorem statusOf_shift_8 : statusOf busy done zero err >>> 8 = 0#32 := by
  refine BitVec.eq_of_getLsbD_eq fun k _ => ?_
  have above : 8 + k = (4 + k) + 4 := by omega
  rw [BitVec.getLsbD_ushiftRight, above, statusOf_bit_add_four, BitVec.getLsbD_of_ge _ _ (by omega),
    BitVec.getLsbD_zero]

end Status

/-- A STATUS read of an idle engine (44_control.md R217). -/
theorem readStatus_of_idle {s : State} (idle : s.cmdr = none) :
    hostAccess (.readReg 1) s = .next { s with reads := s.reads ++ [.reg 1 s.statusIdle] } := by
  rw [hostAccess_of_idle _ idle]; rfl

/-- A STATUS read of a busy engine: Z and ERR come from a free value (93_implementation_defined.md U5). -/
theorem readStatus_of_busy {s : State} {v : Word} (busy : s.cmdr = some v) :
    hostAccess (.readReg 1) s = .next { s with
      reads := s.reads ++ [.reg 1 (s.statusBusy (Config.busyStatus s.draws))], draws := s.draws + 1 } := by
  rw [hostAccess_of_busy _ busy]; rfl

theorem bits_toNat_le_four (c : CompletionCode) : c.bits.toNat ≤ 4 := by cases c <;> decide

/-- Running any word completes it (44_control.md R212, R213). -/
theorem runWord_completes {w : Word} {s t : State} (h : runWord w s = .next t) : t.done = true ∧ t.cmdr = none := by
  obtain ⟨_, _, _, _, _, _, _, rfl⟩ := (runWord_effect h).frame
  exact ⟨rfl, rfl⟩

/-- Settles O48: the word read is `statusOf` of the fields, whose bits are known. -/
theorem statusWordHasItsFields : Obligations.StatusWordHasItsFields := by
  refine ⟨fun s idle => ?_, fun s v busy => ?_, fun w s t h => runWord_completes h, fun w s t idle h => ?_,
    ⟨rfl, rfl, rfl, rfl, rfl⟩, bits_toNat_le_four, ?_⟩
  · exact ⟨s.statusIdle, readStatus_of_idle idle, statusOf_bit_busy .., statusOf_bit_done .., statusOf_bit_zero ..,
      statusOf_bit_reserved .., statusOf_err .., statusOf_shift_8 ..⟩
  · exact ⟨_, _, readStatus_of_busy busy, statusOf_bit_busy .., statusOf_bit_done .., statusOf_bit_reserved ..,
      statusOf_shift_8 ..⟩
  · rw [hostAccess_of_idle _ idle] at h
    cases h
    exact ⟨rfl, rfl⟩
  · have word : State.reset.statusIdle = 0x00000004#32 := by decide
    rw [readStatus_of_idle rfl, word]; rfl

/-! ## Reset (10_state.md R42) -/

/-- The reset input gives the values after reset but for the host's side (70_reset_and_hazards.md R270). -/
theorem hostAction_reset (s : State) : hostAction .reset s = .next (applyReset s) := rfl

/-- Settles O57: at the start and after the reset input each field is the lemma of that field. -/
theorem resetStateValues : Obligations.ResetStateValues := by
  rintro cfg t (rfl | ⟨s, rfl, h⟩)
  · simp [zero_eq_true, busy_eq_false]
  · rw [hostAction_reset] at h
    cases h
    simp [zero_eq_true, busy_eq_false]

end Sys2Proof.Proofs
end

section
/-! PROOFS. The memory (20_memory.md): commands leave the input, the configuration and the host's side alone (R69). -/

namespace Sys2Proof.Proofs

open Sys2Proof Sys2Proof.Machine Sys2Proof.Laws

/-- The input is a function of IBUF, ILEN and the resets so far: a command that keeps these keeps the input
(20_memory.md R69). -/
theorem input_of_effect {s t : State} (effect : CommandEffect s t) : t.input = s.input := by
  obtain ⟨_, _, _, _, _, _, _, rfl⟩ := effect.frame
  rfl

/-- Settles O37: the frame of `exec_effect` names every field a command can change, and none of these is among them. -/
theorem commandsLeaveInputAlone : Obligations.CommandsLeaveInputAlone := by
  intro i s t h
  have input_eq := input_of_effect (exec_effect h)
  obtain ⟨_, _, _, _, _, _, _, rfl⟩ := (exec_effect h).frame
  exact ⟨fun _ => rfl, rfl, rfl, input_eq, rfl, rfl, rfl, rfl, rfl⟩

end Sys2Proof.Proofs
end

section
/-! PROOFS. The command word (30_encoding.md): a word is legal exactly when it selects the row of its OPC (R92, R94) and
its operands are in their domains (R95), and what an illegal word does (R97). -/

namespace Sys2Proof.Proofs

open Sys2Proof Sys2Proof.Machine Sys2Proof.Laws

/-! ## The fields of a word against a row (30_encoding.md R91, R92, R94) -/

theorem fieldOPC_and (v w : Word) : fieldOPC (v &&& w) = fieldOPC v &&& fieldOPC w := BitVec.extractLsb'_and

theorem fieldRSV_and (v w : Word) : fieldRSV (v &&& w) = fieldRSV v &&& fieldRSV w := BitVec.extractLsb'_and

theorem fieldA_and (v w : Word) : fieldA (v &&& w) = fieldA v &&& fieldA w := BitVec.extractLsb'_and

theorem fieldB_and (v w : Word) : fieldB (v &&& w) = fieldB v &&& fieldB w := BitVec.extractLsb'_and

/-- A word is built from three fields exactly when it has these fields and RSV = 0 (30_encoding.md R91). -/
theorem eq_wordOf_iff {w : Word} {opc : BitVec 4} {a : BitVec 9} {b : BitVec 16} :
    w = wordOf opc a b ↔ fieldOPC w = opc ∧ fieldRSV w = 0 ∧ fieldA w = a ∧ fieldB w = b := by
  constructor
  · rintro rfl
    simp
  · rintro ⟨rfl, rsv, rfl, rfl⟩
    exact (wordOf_fields rsv).symm

/-- The value of OPC that stands for each command (30_encoding.md R94). -/
def opcode : Mnemonic → Nat
  | .nop => 0
  | .enc => 1
  | .dec => 2
  | .ldb => 3
  | .stb => 4
  | .ldd => 5
  | .std => 6
  | .muladd => 7
  | .divmod => 8
  | .sym => 9
  | .dig => 10
  | .clr => 11

theorem opcode_lt_twelve (m : Mnemonic) : opcode m < 12 := by cases m <;> decide

/-- Every value of OPC below the reserved ones stands for a command (30_encoding.md R94). -/
theorem exists_opcode_eq {n : Nat} (h : n < 12) : ∃ m, opcode m = n := by
  interval_cases n
  exacts [⟨.nop, rfl⟩, ⟨.enc, rfl⟩, ⟨.dec, rfl⟩, ⟨.ldb, rfl⟩, ⟨.stb, rfl⟩, ⟨.ldd, rfl⟩, ⟨.std, rfl⟩, ⟨.muladd, rfl⟩,
    ⟨.divmod, rfl⟩, ⟨.sym, rfl⟩, ⟨.dig, rfl⟩, ⟨.clr, rfl⟩]

/-- The bits of a row are its OPC and zeros (30_encoding.md R94). -/
theorem row_bits (m : Mnemonic) : (rowOf m).bits = wordOf (BitVec.ofNat 4 (opcode m)) 0 0 := by cases m <;> rfl

/-- Every row fixes all of OPC and RSV (30_encoding.md R92). -/
theorem row_mask_fixes (m : Mnemonic) :
    fieldOPC (rowOf m).mask = BitVec.allOnes 4 ∧ fieldRSV (rowOf m).mask = BitVec.allOnes 3 := by
  cases m <;> exact ⟨rfl, rfl⟩

/-- The word has the OPC of a row, as the statement of R97 writes it. -/
theorem shift_28_eq_row_iff {w : Word} {m : Mnemonic} :
    w >>> 28 = (rowOf m).bits >>> 28 ↔ (fieldOPC w).toNat = opcode m := by
  have lt := opcode_lt_twelve m
  rw [← BitVec.toNat_inj, toNat_shift_28, toNat_shift_28, row_bits, fieldOPC_wordOf, BitVec.toNat_ofNat,
    Nat.mod_eq_of_lt (by omega)]

/-- A word with the OPC of a row selects it when RSV and the must-be-zero bits of A and B are 0 (30_encoding.md R92). -/
theorem selects_row_iff {w : Word} {m : Mnemonic} (opc : (fieldOPC w).toNat = opcode m) :
    w &&& (rowOf m).mask = (rowOf m).bits ↔
      fieldRSV w = 0 ∧ fieldA w &&& fieldA (rowOf m).mask = 0 ∧ fieldB w &&& fieldB (rowOf m).mask = 0 := by
  obtain ⟨maskOPC, maskRSV⟩ := row_mask_fixes m
  have opc_eq : fieldOPC w = BitVec.ofNat 4 (opcode m) := by simp [← opc]
  rw [row_bits, eq_wordOf_iff, fieldOPC_and, fieldRSV_and, fieldA_and, fieldB_and, maskOPC, maskRSV,
    BitVec.and_allOnes, BitVec.and_allOnes]
  simp only [opc_eq, true_and]

/-! ## The decoder, row by row (30_encoding.md R98) -/

/-- The command that a word of a row stands for (30_encoding.md R92, R94). -/
def commandOf (w : Word) : Mnemonic → Instr
  | .nop => .nop
  | .enc => .enc (fieldB w)
  | .dec => .dec (fieldB w)
  | .ldb => .ldb
  | .stb => .stb (fieldB w)
  | .ldd => .ldd (fieldB w)
  | .std => .std (fieldB w)
  | .muladd => .muladd (fieldA w) (fieldAddend w)
  | .divmod => .divmod (fieldA w)
  | .sym => .sym (fieldA w)
  | .dig => .dig (fieldChar w) (fieldB w)
  | .clr => .clr

/-- The must-be-zero bits of a row below RSV, as the decoder tests them (30_encoding.md R92, R98). -/
def formatZero (w : Word) : Mnemonic → Bool
  | .nop | .ldb | .clr => fieldA w == 0 && fieldB w == 0
  | .enc | .dec | .stb | .ldd | .std => fieldA w == 0
  | .muladd => fieldBHigh w == 0
  | .divmod | .sym => fieldB w == 0
  | .dig => fieldATop w == 0

/-- With RSV = 0 the decoder tests the must-be-zero bits of the row of the OPC and then the operand domains
(30_encoding.md R98). -/
theorem decode_of_rsv_zero {w : Word} {m : Mnemonic} (opc : (fieldOPC w).toNat = opcode m) (rsv : fieldRSV w = 0) :
    decode w = zeroBitsDomain (formatZero w m) (commandOf w m).wf (commandOf w m) := by
  cases m <;> simp only [decode, opc, rsv, opcode] <;> rfl

/-- A word with RSV ≠ 0 is never a command (30_encoding.md R97 (a), (b)). -/
theorem decode_of_rsv_ne_zero {w : Word} (rsv : fieldRSV w ≠ 0) :
    decode w = .error (if (fieldOPC w).toNat < 12 then .mustBeZero else .reservedOpcode) := by
  rw [decode, if_pos (by simpa using rsv)]
  split <;> rfl

/-- The must-be-zero bits of format AB are the upper half of B (30_encoding.md R92). -/
theorem fieldBHigh_eq_zero_iff {w : Word} : fieldBHigh w = 0 ↔ fieldB w &&& 0xFF00#16 = 0 := by
  have upper : fieldB w &&& 0xFF00#16 = fieldBHigh w ++ 0#8 := by
    refine BitVec.eq_of_getLsbD_eq fun k hk => ?_
    rw [fieldBHigh_eq, BitVec.getLsbD_append]
    interval_cases k <;> simp
  rw [upper, show (0 : BitVec 16) = 0#8 ++ 0#8 from rfl, BitVec.append_left_inj]
  rfl

/-- The must-be-zero bit of format CB is the top bit of A (30_encoding.md R92). -/
theorem fieldATop_eq_zero_iff {w : Word} : fieldATop w = 0 ↔ fieldA w &&& 0x100#9 = 0 := by
  have top : fieldA w &&& 0x100#9 = fieldATop w ++ 0#8 := by
    refine BitVec.eq_of_getLsbD_eq fun k hk => ?_
    rw [fieldATop_eq, BitVec.getLsbD_append]
    interval_cases k <;> simp
  rw [top, show (0 : BitVec 9) = 0#1 ++ 0#8 from rfl, BitVec.append_left_inj]
  rfl

/-- The bits of A and B that the decoder tests are those of the row's mask (30_encoding.md R92). -/
theorem formatZero_iff {w : Word} {m : Mnemonic} : formatZero w m = true ↔
    fieldA w &&& fieldA (rowOf m).mask = 0 ∧ fieldB w &&& fieldB (rowOf m).mask = 0 := by
  have allA (a : BitVec 9) : a &&& 0x1FF#9 = a := BitVec.and_allOnes
  have allB (b : BitVec 16) : b &&& 0xFFFF#16 = b := BitVec.and_allOnes
  cases m
  all_goals
    simp only [formatZero, rowOf, Bool.and_eq_true, beq_iff_eq, fieldBHigh_eq_zero_iff, fieldATop_eq_zero_iff]
    generalize fieldA w = a
    generalize fieldB w = b
    simp [fieldA, fieldB, allA, allB]

/-- A word with the OPC of a command decodes to something exactly when it selects the command's row and its operands are
in their domains, and then to that command (30_encoding.md R97, R98). -/
theorem decode_eq_ok_iff_of_opcode {w : Word} {m : Mnemonic} {i : Instr} (opc : (fieldOPC w).toNat = opcode m) :
    decode w = .ok i ↔
      w &&& (rowOf m).mask = (rowOf m).bits ∧ (commandOf w m).wf = true ∧ commandOf w m = i := by
  rw [selects_row_iff opc]
  by_cases rsv : fieldRSV w = 0
  · rw [decode_of_rsv_zero opc rsv, zeroBitsDomain_eq_ok, formatZero_iff]
    simp only [rsv, true_and]
  · simp only [decode_of_rsv_ne_zero rsv, rsv, reduceCtorEq, false_and]

/-- A word with a reserved OPC is illegal (30_encoding.md R97 (a)). -/
theorem decode_of_reserved {w : Word} (opc : 12 ≤ (fieldOPC w).toNat) : decode w = .error .reservedOpcode := by
  by_cases rsv : fieldRSV w = 0
  · unfold decode
    rw [if_neg (by simpa using rsv)]
    split
    case h_13 => rfl
    all_goals omega
  · rw [decode_of_rsv_ne_zero rsv, if_neg (by omega)]

/-! ## Illegal words (30_encoding.md R97) -/

theorem legalRadix_eq_false_iff {a : BitVec 9} : legalRadix a = false ↔ ¬ (2 ≤ a.toNat ∧ a.toNat ≤ 256) := by
  rw [← legalRadix_iff, Bool.not_eq_true]

theorem legalDigit_eq_false_iff {a : BitVec 9} : legalDigit a = false ↔ 93 < a.toNat := by
  rw [legalDigit, decide_eq_false_iff_not, alphaLen]
  omega

/-- The commands with an operand domain are MULADD, DIVMOD and SYM, and the operand is A (30_encoding.md R95). -/
theorem commandOf_wf_eq_false {w : Word} {m : Mnemonic} : (commandOf w m).wf = false ↔
    (m = .muladd ∨ m = .divmod) ∧ ¬ (2 ≤ (fieldA w).toNat ∧ (fieldA w).toNat ≤ 256) ∨
      m = .sym ∧ 93 < (fieldA w).toNat := by
  rw [← legalRadix_eq_false_iff, ← legalDigit_eq_false_iff]
  cases m <;> simp [commandOf, Instr.wf]

/-- A word with the OPC of a command is illegal by R97 (b) or R97 (c). -/
theorem illegal_iff_of_opcode {w : Word} {m : Mnemonic} (opc : (fieldOPC w).toNat = opcode m) :
    (∃ e, decode w = .error e) ↔
      w &&& (rowOf m).mask ≠ (rowOf m).bits ∨ (commandOf w m).wf = false := by
  have not_ok : (∃ e, decode w = .error e) ↔ ¬ ∃ i, decode w = .ok i := by cases decode w <;> simp
  rw [not_ok]
  simp only [decode_eq_ok_iff_of_opcode opc, exists_and_left, exists_eq', and_true, not_and_or, Bool.not_eq_true, ne_eq]

/-- A word is illegal exactly by one of the three reasons of R97. -/
theorem illegal_iff (w : Word) : (∃ e, decode w = .error e) ↔
    12 ≤ (w >>> 28).toNat ∨
    (∃ m : Mnemonic, w >>> 28 = (rowOf m).bits >>> 28 ∧ w &&& (rowOf m).mask ≠ (rowOf m).bits) ∨
    ((w >>> 28 = 7#32 ∨ w >>> 28 = 8#32) ∧ ¬ (2 ≤ (fieldA w).toNat ∧ (fieldA w).toNat ≤ 256)) ∨
    (w >>> 28 = 9#32 ∧ 93 < (fieldA w).toNat) := by
  have muladd : w >>> 28 = 7#32 ↔ (fieldOPC w).toNat = opcode .muladd := shift_28_eq_row_iff (m := .muladd)
  have divmod : w >>> 28 = 8#32 ↔ (fieldOPC w).toNat = opcode .divmod := shift_28_eq_row_iff (m := .divmod)
  have sym : w >>> 28 = 9#32 ↔ (fieldOPC w).toNat = opcode .sym := shift_28_eq_row_iff (m := .sym)
  rw [toNat_shift_28, muladd, divmod, sym]
  simp only [shift_28_eq_row_iff]
  constructor
  · intro illegal
    rcases Nat.lt_or_ge (fieldOPC w).toNat 12 with lt | reserved
    · obtain ⟨m, opc⟩ := exists_opcode_eq lt
      rcases (illegal_iff_of_opcode opc.symm).1 illegal with row | domain
      · exact .inr (.inl ⟨m, opc.symm, row⟩)
      · rcases commandOf_wf_eq_false.1 domain with ⟨rfl | rfl, radix⟩ | ⟨rfl, digit⟩
        · exact .inr (.inr (.inl ⟨.inl opc.symm, radix⟩))
        · exact .inr (.inr (.inl ⟨.inr opc.symm, radix⟩))
        · exact .inr (.inr (.inr ⟨opc.symm, digit⟩))
    · exact .inl reserved
  · rintro (reserved | ⟨m, opc, row⟩ | ⟨opc | opc, radix⟩ | ⟨opc, digit⟩)
    · exact ⟨_, decode_of_reserved reserved⟩
    · exact (illegal_iff_of_opcode opc).2 (.inl row)
    · exact (illegal_iff_of_opcode opc).2 (.inr (commandOf_wf_eq_false.2 (.inl ⟨.inl rfl, radix⟩)))
    · exact (illegal_iff_of_opcode opc).2 (.inr (commandOf_wf_eq_false.2 (.inl ⟨.inr rfl, radix⟩)))
    · exact (illegal_iff_of_opcode opc).2 (.inr (commandOf_wf_eq_false.2 (.inr ⟨rfl, digit⟩)))

/-- On its turn the engine runs the word in CMDR (44_control.md R213). -/
theorem step_of_engineTurn {s : State} {w : Word} (word : s.cmdr = some w) (turn : s.engineTurn = true) :
    step s = runWord w s := by
  simp only [step, turn, if_true, engineStep, word]

/-- An illegal word completes with IllegalCommand and changes nothing else (30_encoding.md R97, 60_exceptions.md R234). -/
theorem runWord_of_illegal {w : Word} {e : Illegal} (s : State) (illegal : decode w = .error e) :
    runWord w s = .next { s with err := .illegalCommand, errchar := 0, errpos := 0, done := true, cmdr := none } := by
  simp only [runWord, illegal]
  rfl

/-- Only the word 0 is a NOP: its row fixes every bit (30_encoding.md R92 format Z, 44_control.md R215). -/
theorem decode_eq_nop_iff {w : Word} : decode w = .ok .nop ↔ w = 0#32 := by
  constructor
  · intro nop
    rcases Nat.lt_or_ge (fieldOPC w).toNat 12 with lt | reserved
    · obtain ⟨m, opc⟩ := exists_opcode_eq lt
      obtain ⟨selects, -, command⟩ := (decode_eq_ok_iff_of_opcode opc.symm).1 nop
      cases m <;> simp only [commandOf, reduceCtorEq] at command
      exact BitVec.and_allOnes.symm.trans selects
    · simp [decode_of_reserved reserved] at nop
  · rintro rfl
    decide

/-- Settles O2: the reasons of R97 come from the decoder's answer row by row, and running an illegal word is its
completion. -/
theorem illegalWordsAreTheseAndOnlyComplete : Obligations.IllegalWordsAreTheseAndOnlyComplete := by
  refine ⟨illegal_iff, fun w s idle => ?_, fun w e s illegal word turn => ?_, fun w => decode_eq_nop_iff⟩
  · rw [hostAccess_of_idle _ idle]
    rfl
  · rw [step_of_engineTurn word turn, runWord_of_illegal s illegal]

end Sys2Proof.Proofs
end

section
/-! PROOFS. The alphabet (40_alphabet.md): the reference alphabet (R122), what SYM and DIG leave (R125, R126), and that
no step changes a parameter (R131). -/

namespace Sys2Proof.Proofs

open Sys2Proof Sys2Proof.Machine Sys2Proof.Laws

/-! ## The word of a command as a number, and completion (30_encoding.md R91, 44_control.md R212) -/

/-- Two fields side by side as a number (30_encoding.md R91). -/
theorem toNat_append_eq_add {m n : Nat} (x : BitVec m) (y : BitVec n) :
    (x ++ y).toNat = x.toNat * 2 ^ n + y.toNat := by
  rw [BitVec.toNat_append, ← Nat.shiftLeft_add_eq_or_of_lt y.isLt, Nat.shiftLeft_eq]

/-- A command word as a number: each field at its place (30_encoding.md R91). -/
theorem wordOf_eq_ofNat (opc : BitVec 4) (a : BitVec 9) (b : BitVec 16) :
    wordOf opc a b = BitVec.ofNat 32 (opc.toNat * 0x10000000 + a.toNat * 0x10000 + b.toNat) := by
  refine BitVec.eq_of_toNat_eq ?_
  simp only [wordOf, toNat_append_eq_add, BitVec.toNat_ofNat]
  omega

/-- An error that drops neither the output nor ACC is only its completion (60_exceptions.md R236). -/
theorem raise_eq_complete {m : Option Mnemonic} {e : Raised} (s : State) (output : dropsOutput m e = false)
    (acc : dropsAcc m e = false) : raise m e s = s.complete e.code e.char e.pos := by
  simp [raise, output, acc]

/-! ## SYM and DIG (40_alphabet.md R125, R126) -/

theorem legalDigit_iff {d : BitVec 9} : legalDigit d = true ↔ d.toNat ≤ 93 := by
  rw [← Bool.not_eq_false, legalDigit_eq_false_iff, not_lt]

/-- A digit with a symbol completes with that symbol in RES (40_alphabet.md R125). -/
theorem exec_sym_of_le {s : State} {d : BitVec 9} (h : d.toNat ≤ 93) :
    exec (.sym d) s = .next { s with res := s.cfg.alpha.getD d.toNat 0 }.succeed := by
  simp only [exec, execSym, legalDigit_iff.2 h, if_true, symbolFor]

/-- A digit without a symbol is an illegal command (40_alphabet.md R125). -/
theorem exec_sym_of_gt {s : State} {d : BitVec 9} (h : 93 < d.toNat) :
    exec (.sym d) s = .next (s.complete .illegalCommand 0 0) := by
  simp only [exec, execSym, legalDigit_eq_false_iff.2 h, Bool.false_eq_true, if_false]
  exact congrArg _ (raise_eq_complete s rfl rfl)

/-- The word of SYM (30_encoding.md R94). -/
theorem encode_sym (d : BitVec 9) : encode (.sym d) = BitVec.ofNat 32 (0x90000000 + d.toNat * 0x10000) := by
  rw [encode, wordOf_eq_ofNat]
  simp

/-- Settles O12: R95 splits the digits at 93, and the word is read off its fields. -/
theorem symLooksUpSymbol : Obligations.SymLooksUpSymbol :=
  ⟨fun _ _ le => exec_sym_of_le le, fun _ _ gt => exec_sym_of_gt gt, encode_sym⟩

/-- A symbol of the base has its place in the alphabet as digit (40_alphabet.md R128, R129). -/
theorem digitFor_of_mem {cfg : Config} {c : Byte} {b : Nat} (h : c ∈ cfg.alpha.take b) :
    digitFor cfg c b = some (cfg.alpha.idxOf c) := by
  obtain ⟨i, hi⟩ := Option.isSome_iff_exists.1 (digitFor_isSome.2 h)
  obtain ⟨-, rfl, -⟩ := digitFor_eq_some.1 hi
  exact hi

/-- A code that is no symbol of the base has no digit, in the alphabet or not (40_alphabet.md R128, R129). -/
theorem digitFor_of_not_mem {cfg : Config} {c : Byte} {b : Nat} (h : c ∉ cfg.alpha.take b) :
    digitFor cfg c b = none := by
  rwa [← digitFor_isSome, Option.not_isSome_iff_eq_none] at h

/-- The base is checked first, whatever the character is (40_alphabet.md R126). -/
theorem exec_dig_of_illegal_base {s : State} {c : BitVec 8} {b : BitVec 16} (h : b.toNat < 2 ∨ 94 < b.toNat) :
    exec (.dig c b) s = .next (s.complete .invalidBase 0 0) := by
  simp only [exec, execDig, legalBase_eq_false.2 h, Bool.false_eq_true, if_false]
  exact congrArg _ (raise_eq_complete s rfl rfl)

/-- A symbol of a legal base completes with its digit in RES (40_alphabet.md R126). -/
theorem exec_dig_of_mem {s : State} {c : BitVec 8} {b : BitVec 16} (legal : legalBase b = true)
    (mem : c ∈ s.cfg.alpha.take b.toNat) :
    exec (.dig c b) s = .next { s with res := BitVec.ofNat 8 (s.cfg.alpha.idxOf c) }.succeed := by
  simp only [exec, execDig, legal, if_true, digitFor_of_mem mem]

/-- Any other character fails at position 0, RES unchanged (40_alphabet.md R126). -/
theorem exec_dig_of_not_mem {s : State} {c : BitVec 8} {b : BitVec 16} (legal : legalBase b = true)
    (not_mem : c ∉ s.cfg.alpha.take b.toNat) :
    exec (.dig c b) s = .next (s.complete .invalidCharacter c 0) := by
  simp only [exec, execDig, legal, if_true, digitFor_of_not_mem not_mem]
  exact congrArg _ (raise_eq_complete s rfl rfl)

/-- The word of DIG: its character is the low 8 bits of A (30_encoding.md R92 format CB). -/
theorem encode_dig (c : BitVec 8) (b : BitVec 16) :
    encode (.dig c b) = BitVec.ofNat 32 (0xA0000000 + c.toNat * 0x10000 + b.toNat) := by
  have char : (c.setWidth 9).toNat = c.toNat := BitVec.toNat_setWidth_of_le (by omega)
  rw [encode, wordOf_eq_ofNat, char]
  simp

/-- Settles O13: the base, then membership in the first `base` symbols, each decided by one lemma. -/
theorem digLooksUpDigit : Obligations.DigLooksUpDigit :=
  ⟨fun _ _ _ illegal => exec_dig_of_illegal_base illegal,
    fun _ _ _ two_le le_94 mem => exec_dig_of_mem (legalBase_iff.2 ⟨two_le, le_94⟩) mem,
    fun _ _ _ two_le le_94 not_mem => exec_dig_of_not_mem (legalBase_iff.2 ⟨two_le, le_94⟩) not_mem,
    encode_dig⟩

/-! ## The parameters (40_alphabet.md R131) -/

/-- No host access writes a parameter (10_state.md R25). -/
theorem cfg_of_hostEffect {s t : State} (h : HostEffect s t) : t.cfg = s.cfg := by
  cases h <;> rfl

/-- No command writes a parameter (40_alphabet.md R131). -/
theorem cfg_of_commandEffect {s t : State} (h : CommandEffect s t) : t.cfg = s.cfg := by
  obtain ⟨_, _, _, _, _, _, _, rfl⟩ := h.frame
  rfl

/-- No turn of the host's side changes a parameter, the reset input included (40_alphabet.md R131). -/
theorem cfg_of_hostAction {a : HostAction} {s t : State} (h : hostAction a s = .next t) : t.cfg = s.cfg :=
  hostAction_keeps (fun u => u.cfg = s.cfg) (fun _ _ kept effect => (cfg_of_hostEffect effect).trans kept)
    (fun u kept => (applyReset_cfg u).trans kept) rfl h

/-- Settles O33: the engine's turn, an idle step and the host's turn each keep the configuration. -/
theorem noStepChangesTheAlphabet : Obligations.NoStepChangesTheAlphabet := by
  refine ⟨resetWith_cfg, fun s t h => ?_⟩
  rcases step_eq_next h with ⟨w, -, -, run⟩ | ⟨-, -, rfl⟩ | ⟨turn, rest, -, -, act⟩
  · exact cfg_of_commandEffect (runWord_effect run)
  · rfl
  · exact cfg_of_hostAction (s := { s with host := rest }) act

/-! ## The reference alphabet (40_alphabet.md R122) -/

/-- A run of codes below 256 is the codes of its range. -/
theorem mem_codesFrom {first n : Nat} (fits : first + n ≤ 256) {c : Byte} :
    c ∈ codesFrom first n ↔ first ≤ c.toNat ∧ c.toNat < first + n := by
  rw [codesFrom, List.mem_map]
  constructor
  · rintro ⟨k, hk, rfl⟩
    have lt : k < n := List.mem_range.1 hk
    rw [BitVec.toNat_ofNat, Nat.mod_eq_of_lt (by omega)]
    omega
  · rintro ⟨ge, lt⟩
    exact ⟨c.toNat - first, List.mem_range.2 (by omega), by simp [Nat.add_sub_cancel' ge]⟩

/-- A run of codes below 256 names no code twice. -/
theorem nodup_codesFrom {first n : Nat} (fits : first + n ≤ 256) : (codesFrom first n).Nodup := by
  refine List.nodup_range.map_on fun j hj k hk eq => ?_
  have codes := congrArg BitVec.toNat eq
  rw [List.mem_range] at hj hk
  simp only [BitVec.toNat_ofNat] at codes
  omega

/-- The symbols of the reference alphabet are exactly the printable codes (40_alphabet.md R122, R123). -/
theorem mem_alphabetRef {c : Byte} : c ∈ alphabetRef ↔ Printable c := by
  simp (disch := omega) only [alphabetRef, List.mem_append, mem_codesFrom, Printable]
  omega

/-- The seven runs of the reference alphabet share no code (40_alphabet.md R121 (b), R122). -/
theorem nodup_alphabetRef : alphabetRef.Nodup := by
  simp (disch := omega) only [alphabetRef, List.nodup_append', nodup_codesFrom, List.disjoint_left, List.mem_append,
    mem_codesFrom, true_and]
  grind

/-- The reference alphabet satisfies the invariants of an alphabet (40_alphabet.md R121). -/
theorem referenceConfig_alphabetOk : referenceConfig.AlphabetOk := by
  refine ⟨rfl, nodup_alphabetRef, fun _ => mem_alphabetRef.1, ?_⟩
  have symbol_10 : referenceConfig.alpha[10]? = some 0x61#8 := rfl
  rw [symbol_10]
  rintro _ ⟨⟩
  decide

/-- Settles O30: the closed form is compared with the 94 codes one by one. -/
theorem referenceAlphabetIsAllowed : Obligations.ReferenceAlphabetIsAllowed :=
  ⟨referenceConfig_alphabetOk, by decide⟩

end Sys2Proof.Proofs
end

section
/-! PROOFS. The encoder (41_encoder.md): what ENC leaves (R141), and that ENC and DEC turn no input into no output
(R143, R159). -/

namespace Sys2Proof.Proofs

open Sys2Proof Sys2Proof.Machine Sys2Proof.Laws

/-! ## The two completions of a conversion (60_exceptions.md R236, R237, 20_memory.md R68) -/

/-- An error that leaves OLEN = 0 and keeps ACC (60_exceptions.md R237, R238). -/
theorem raise_eq_complete_dropOutput {m : Option Mnemonic} {e : Raised} (s : State) (output : dropsOutput m e = true)
    (acc : dropsAcc m e = false) : raise m e s = s.dropOutput.complete e.code e.char e.pos := by
  simp [raise, output, acc]

/-- An output that fits is stored whole, in whatever way it is cut into padding and body (20_memory.md R68). -/
theorem emit_eq_setOutput {z : Nat} {pad : Byte} {body out : List Byte} {s : State}
    (out_eq : out = List.replicate z pad ++ body) (fits : out.length ≤ s.cfg.outputLimit) :
    emit z pad body s = .next (s.setOutput out out.length).succeed := by
  have length_eq : out.length = z + body.length := by simp [out_eq]
  rw [emit_of_le (length_eq ▸ fits), ← out_eq, ← length_eq]

/-! ## ENC (41_encoder.md R141, R142) -/

/-- The base is checked before anything else happens (41_encoder.md R142). -/
theorem exec_enc_of_illegal_base {s : State} {b : BitVec 16} (h : b.toNat < 2 ∨ 94 < b.toNat) :
    exec (.enc b) s = .next (s.dropOutput.complete .invalidBase 0 0) := by
  simp only [exec, execEnc, legalBase_eq_false.2 h, Bool.false_eq_true, if_false]
  exact congrArg _ (raise_eq_complete_dropOutput s rfl rfl)

/-- A legal base and an output that fits: the closed form is stored and ACC is left 0 (41_encoder.md R141). -/
theorem exec_enc_of_legal_base {s : State} {b : BitVec 16} (legal : legalBase b = true)
    (fits : (encoded s.cfg.alpha b.toNat s.input).length ≤ s.cfg.outputLimit) :
    exec (.enc b) s = .next ({ s with acc := 0 }.setOutput (encoded s.cfg.alpha b.toNat s.input)
      (encoded s.cfg.alpha b.toNat s.input).length).succeed := by
  simp only [exec, execEnc, legal, if_true]
  exact emit_eq_setOutput (encoded_eq (legalBase_iff.1 legal).1 s.input) fits

/-- The word of ENC (30_encoding.md R94). -/
theorem encode_enc (b : BitVec 16) : encode (.enc b) = BitVec.ofNat 32 (0x10000000 + b.toNat) := by
  rw [encode, wordOf_eq_ofNat]
  simp

/-- Settles O14: R142 splits the bases, and the word is read off its fields. -/
theorem encEncodesInput : Obligations.EncEncodesInput :=
  ⟨fun _ _ illegal => exec_enc_of_illegal_base illegal,
    fun _ _ _ two_le le_94 fits => exec_enc_of_legal_base (legalBase_iff.2 ⟨two_le, le_94⟩) fits,
    encode_enc⟩

/-! ## DEC on a string it accepts (42_decoder.md R156, R157) -/

/-- The base is checked before anything else happens (42_decoder.md R157). -/
theorem exec_dec_of_illegal_base {s : State} {b : BitVec 16} (h : b.toNat < 2 ∨ 94 < b.toNat) :
    exec (.dec b) s = .next (s.dropOutput.complete .invalidBase 0 0) := by
  simp only [exec, execDec, legalBase_eq_false.2 h, Bool.false_eq_true, if_false]
  exact congrArg _ (raise_eq_complete_dropOutput s rfl rfl)

/-- A string of symbols of a legal base whose output fits: the closed form is stored and ACC is left 0
(42_decoder.md R156). -/
theorem exec_dec_of_symbols {s : State} {b : BitVec 16} (legal : legalBase b = true)
    (symbols : ∀ c ∈ s.input, c ∈ s.cfg.alpha.take b.toNat)
    (fits : (decoded s.cfg.alpha b.toNat s.input).length ≤ s.cfg.outputLimit) :
    exec (.dec b) s = .next ({ s with acc := 0 }.setOutput (decoded s.cfg.alpha b.toNat s.input)
      (decoded s.cfg.alpha b.toNat s.input).length).succeed := by
  simp only [exec, execDec, legal, if_true, scan_symbols symbols]
  exact emit_eq_setOutput (decoded_eq s.cfg.alpha b.toNat s.input) fits

/-! ## No input (41_encoder.md R143, 42_decoder.md R159) -/

theorem input_eq_nil {s : State} (empty : s.ilen = 0) : s.input = [] := by
  simp [State.input, empty]

@[simp] theorem encoded_nil (alpha : List Byte) (b : Nat) : encoded alpha b [] = [] := by
  simp [encoded, leading, positional, bigEndian]

@[simp] theorem decoded_nil (alpha : List Byte) (b : Nat) : decoded alpha b [] = [] := by
  simp [decoded, positional, bigEndian]

/-- No input: ENC stores the empty string (41_encoder.md R143). -/
theorem exec_enc_of_empty {s : State} {b : BitVec 16} (empty : s.ilen = 0) (legal : legalBase b = true) :
    exec (.enc b) s = .next ({ s with acc := 0 }.setOutput [] 0).succeed := by
  have out_nil : encoded s.cfg.alpha b.toNat s.input = [] := by rw [input_eq_nil empty, encoded_nil]
  simpa [out_nil] using exec_enc_of_legal_base (s := s) legal (by simp [out_nil])

/-- No input: DEC has no character to refuse and stores no byte (42_decoder.md R159). -/
theorem exec_dec_of_empty {s : State} {b : BitVec 16} (empty : s.ilen = 0) (legal : legalBase b = true) :
    exec (.dec b) s = .next ({ s with acc := 0 }.setOutput [] 0).succeed := by
  have out_nil : decoded s.cfg.alpha b.toNat s.input = [] := by rw [input_eq_nil empty, decoded_nil]
  simpa [out_nil] using exec_dec_of_symbols (s := s) legal (by simp [input_eq_nil empty]) (by simp [out_nil])

/-- Settles O16: for either command, no input gives no output when the base is legal, and the base is checked first
when it is not. -/
theorem emptyInputGivesEmptyOutput : Obligations.EmptyInputGivesEmptyOutput := by
  rintro s b i empty (rfl | rfl)
  · exact ⟨fun two_le le_94 => exec_enc_of_empty empty (legalBase_iff.2 ⟨two_le, le_94⟩), exec_enc_of_illegal_base⟩
  · exact ⟨fun two_le le_94 => exec_dec_of_empty empty (legalBase_iff.2 ⟨two_le, le_94⟩), exec_dec_of_illegal_base⟩

end Sys2Proof.Proofs
end

section
/-! PROOFS. The decoder (42_decoder.md): the first character that is no symbol of the base (R158), and what DEC
leaves (R156). -/

namespace Sys2Proof.Proofs

open Sys2Proof Sys2Proof.Machine Sys2Proof.Laws

/-- An error that leaves OLEN = 0 and ACC = 0 (60_exceptions.md R237, R238). -/
theorem raise_eq_complete_dropOutput_acc {m : Option Mnemonic} {e : Raised} (s : State)
    (output : dropsOutput m e = true) (acc : dropsAcc m e = true) :
    raise m e s = ({ s with acc := 0 } : State).dropOutput.complete e.code e.char e.pos := by
  simp only [raise, output, acc, if_true]
  rfl

/-- A string of symbols up to its element `k`, which is none, stops the scan there (42_decoder.md R158). -/
theorem scan_first_not_mem {cfg : Config} {b pos k : Nat} {x : List Byte} {c : Byte} (at_k : x[k]? = some c)
    (not_mem : c ∉ cfg.alpha.take b) (before : ∀ j < k, ∀ d ∈ x[j]?, d ∈ cfg.alpha.take b) :
    scan (fun c => digitFor cfg c b) pos x = .error (c, pos + k) :=
  scan_eq_error.2 ⟨k, rfl, at_k, digitFor_of_not_mem not_mem, fun j lt d at_j =>
    Option.isSome_iff_ne_none.1 (digitFor_isSome.2 (before j lt d at_j))⟩

/-- The first character that is no symbol of a legal base is reported with its index, with no output and ACC = 0
(42_decoder.md R158, 60_exceptions.md R237, R238). -/
theorem exec_dec_of_first_not_mem {s : State} {b : BitVec 16} {k : Nat} {c : Byte} (legal : legalBase b = true)
    (at_k : s.input[k]? = some c) (not_mem : c ∉ s.cfg.alpha.take b.toNat)
    (before : ∀ j < k, ∀ d ∈ s.input[j]?, d ∈ s.cfg.alpha.take b.toNat) :
    exec (.dec b) s =
      .next (({ s with acc := 0 } : State).dropOutput.complete .invalidCharacter c (BitVec.ofNat 32 k)) := by
  simp only [exec, execDec, legal, if_true, scan_first_not_mem at_k not_mem before, Nat.zero_add]
  exact congrArg _ (raise_eq_complete_dropOutput_acc s rfl rfl)

/-- The word of DEC (30_encoding.md R94). -/
theorem encode_dec (b : BitVec 16) : encode (.dec b) = BitVec.ofNat 32 (0x20000000 + b.toNat) := by
  rw [encode, wordOf_eq_ofNat]
  simp

/-- Settles O15: R157 splits the bases and R158 the strings, and the word is read off its fields. -/
theorem decDecodesOrReportsFirstBad : Obligations.DecDecodesOrReportsFirstBad :=
  ⟨fun _ _ illegal => exec_dec_of_illegal_base illegal,
    fun _ _ _ _ _ two_le le_94 at_k not_mem before =>
      exec_dec_of_first_not_mem (legalBase_iff.2 ⟨two_le, le_94⟩) at_k not_mem before,
    fun _ _ _ two_le le_94 symbols fits => exec_dec_of_symbols (legalBase_iff.2 ⟨two_le, le_94⟩) symbols fits,
    encode_dec⟩

end Sys2Proof.Proofs
end

section
/-! PROOFS. The big-integer commands (43_bigint.md): what CLR, MULADD, DIVMOD, LDB, STB, LDD and STD leave (R171 to
R177), and which words of MULADD and DIVMOD are illegal (R172, R173). -/

namespace Sys2Proof.Proofs

open Sys2Proof Sys2Proof.Machine Sys2Proof.Laws

/-! ## CLR (43_bigint.md R171) -/

/-- CLR completes with ACC = 0 (43_bigint.md R171). -/
theorem exec_clr (s : State) : exec .clr s = .next { s with acc := 0 }.succeed := rfl

/-- Settles O5: Z reads the ACC that CLR leaves. -/
theorem clrZeroesAcc : Obligations.ClrZeroesAcc := by
  refine ⟨exec_clr, fun s t h => ?_, rfl⟩
  rw [exec_clr] at h
  cases h
  exact zero_eq_true.2 rfl

/-! ## The illegal words of the two commands with a radix (30_encoding.md R92, R95, R97) -/

/-- A radix is illegal on either side of 2..256 (30_encoding.md R95). -/
theorem legalRadix_eq_false_of_outside {m : BitVec 9} (h : m.toNat < 2 ∨ 256 < m.toNat) : legalRadix m = false :=
  legalRadix_eq_false_iff.2 (by omega)

/-- A word with the OPC of a row selects it when the row's must-be-zero bits, those of the mask below OPC, are 0
(30_encoding.md R92). -/
theorem selects_row_iff_and_eq_zero {w : Word} {m : Mnemonic} (opc : (fieldOPC w).toNat = opcode m) :
    w &&& (rowOf m).mask = (rowOf m).bits ↔ w &&& ((rowOf m).mask &&& 0x0FFFFFFF#32) = 0#32 := by
  have maskRSV : fieldRSV (rowOf m).mask = BitVec.allOnes 3 := (row_mask_fixes m).2
  have belowOPC : fieldOPC 0x0FFFFFFF#32 = 0 := rfl
  have belowRSV : fieldRSV 0x0FFFFFFF#32 = BitVec.allOnes 3 := rfl
  have belowA : fieldA 0x0FFFFFFF#32 = BitVec.allOnes 9 := rfl
  have belowB : fieldB 0x0FFFFFFF#32 = BitVec.allOnes 16 := rfl
  rw [selects_row_iff opc, show (0#32 : Word) = wordOf 0 0 0 from rfl, eq_wordOf_iff]
  simp only [fieldOPC_and, fieldRSV_and, fieldA_and, fieldB_and, maskRSV, belowOPC, belowRSV, belowA, belowB,
    BitVec.and_allOnes]
  simp

/-- A word of MULADD or DIVMOD is illegal when a must-be-zero bit is set or its radix is outside 2..256
(43_bigint.md R172, R173). -/
theorem illegal_radix_iff {w : Word} {m : Mnemonic} (radix : m = .muladd ∨ m = .divmod)
    (opc : w >>> 28 = (rowOf m).bits >>> 28) : (∃ e, decode w = .error e) ↔
      w &&& ((rowOf m).mask &&& 0x0FFFFFFF#32) ≠ 0#32 ∨ (fieldA w).toNat < 2 ∨ 256 < (fieldA w).toNat := by
  have opc_eq := shift_28_eq_row_iff.1 opc
  have not_sym : m ≠ .sym := by rintro rfl; simp at radix
  rw [illegal_iff_of_opcode opc_eq, commandOf_wf_eq_false, ne_eq, selects_row_iff_and_eq_zero opc_eq]
  simp only [radix, not_sym, true_and, false_and, or_false, not_and_or, not_le, ne_eq]

/-! ## MULADD (43_bigint.md R172) -/

/-- A legal radix: ACC·m + a, whatever the addend (43_bigint.md R172). -/
theorem exec_muladd_of_legal_radix {s : State} {m : BitVec 9} {a : BitVec 8} (legal : legalRadix m = true) :
    exec (.muladd m a) s = .next { s with acc := s.acc * m.toNat + a.toNat }.succeed := by
  simp only [exec, execMuladd, legal, if_true]

/-- A radix outside its domain is an illegal command (43_bigint.md R172). -/
theorem exec_muladd_of_illegal_radix {s : State} {m : BitVec 9} {a : BitVec 8} (illegal : legalRadix m = false) :
    exec (.muladd m a) s = .next (s.complete .illegalCommand 0 0) := by
  simp only [exec, execMuladd, illegal, Bool.false_eq_true, if_false]
  exact congrArg _ (raise_eq_complete s rfl rfl)

/-- MULADD leaves Z = 1 only from ACC = 0 with the addend 0, for no legal radix is 0 (43_bigint.md R172). -/
theorem zero_of_muladd {s t : State} {m : BitVec 9} {a : BitVec 8} (legal : legalRadix m = true)
    (h : exec (.muladd m a) s = .next t) : t.zero = true ↔ s.acc = 0 ∧ a = 0 := by
  have radix_ne : m.toNat ≠ 0 := by have := (legalRadix_iff.1 legal).1; omega
  have addend_zero : a.toNat = 0 ↔ a = 0 := BitVec.toNat_inj (y := 0)
  rw [exec_muladd_of_legal_radix legal] at h
  cases h
  simp only [zero_eq_true, succeed_acc, Nat.add_eq_zero_iff, Nat.mul_eq_zero, radix_ne, or_false, addend_zero]

/-- The word of MULADD: its addend is the low 8 bits of B (30_encoding.md R92 format AB). -/
theorem encode_muladd (m : BitVec 9) (a : BitVec 8) :
    encode (.muladd m a) = BitVec.ofNat 32 (0x70000000 + m.toNat * 0x10000 + a.toNat) := by
  have addend : (a.setWidth 16).toNat = a.toNat := BitVec.toNat_setWidth_of_le (by omega)
  rw [encode, wordOf_eq_ofNat, addend]
  simp

/-- Settles O6: R95 splits the radices, Z is read off the new ACC, and the row of MULADD decides its words. -/
theorem muladdMultipliesAndAdds : Obligations.MuladdMultipliesAndAdds :=
  ⟨fun _ _ _ two_le le_256 => exec_muladd_of_legal_radix (legalRadix_iff.2 ⟨two_le, le_256⟩),
    fun _ _ _ _ two_le le_256 h => zero_of_muladd (legalRadix_iff.2 ⟨two_le, le_256⟩) h,
    fun _ _ _ outside => exec_muladd_of_illegal_radix (legalRadix_eq_false_of_outside outside),
    encode_muladd,
    fun _ opc => illegal_radix_iff (m := .muladd) (.inl rfl) opc⟩

/-! ## DIVMOD (43_bigint.md R173) -/

/-- A legal radix: the remainder in RES and the quotient in ACC (43_bigint.md R173). -/
theorem exec_divmod_of_legal_radix {s : State} {d : BitVec 9} (legal : legalRadix d = true) :
    exec (.divmod d) s =
      .next { s with res := BitVec.ofNat 8 (s.acc % d.toNat), acc := s.acc / d.toNat }.succeed := by
  simp only [exec, execDivmod, legal, if_true]

/-- A radix outside its domain is an illegal command (43_bigint.md R173). -/
theorem exec_divmod_of_illegal_radix {s : State} {d : BitVec 9} (illegal : legalRadix d = false) :
    exec (.divmod d) s = .next (s.complete .illegalCommand 0 0) := by
  simp only [exec, execDivmod, illegal, Bool.false_eq_true, if_false]
  exact congrArg _ (raise_eq_complete s rfl rfl)

/-- DIVMOD divides with remainder, the remainder fits RES, and the quotient is 0 exactly when the old ACC is below the
radix (43_bigint.md R173). -/
theorem quotient_remainder_of_divmod {s t : State} {d : BitVec 9} (legal : legalRadix d = true)
    (h : exec (.divmod d) s = .next t) :
    s.acc = t.acc * d.toNat + t.res.toNat ∧ t.res.toNat < d.toNat ∧ (t.zero = true ↔ s.acc < d.toNat) := by
  have radix_pos : 0 < d.toNat := by have := (legalRadix_iff.1 legal).1; omega
  have run := exec_divmod_of_legal_radix (s := s) legal
  rw [h] at run
  cases run
  have remainder := res_of_divmod h rfl
  rw [remainder, zero_eq_true]
  exact ⟨(Nat.div_add_mod' _ _).symm, Nat.mod_lt _ radix_pos, Nat.div_eq_zero_iff_lt radix_pos⟩

/-- The word of DIVMOD (30_encoding.md R94). -/
theorem encode_divmod (d : BitVec 9) : encode (.divmod d) = BitVec.ofNat 32 (0x80000000 + d.toNat * 0x10000) := by
  rw [encode, wordOf_eq_ofNat]
  simp

/-- Settles O7: R95 splits the radices, and the row of DIVMOD decides its words. -/
theorem divmodDividesBySmall : Obligations.DivmodDividesBySmall :=
  ⟨fun _ _ two_le le_256 => exec_divmod_of_legal_radix (legalRadix_iff.2 ⟨two_le, le_256⟩),
    fun _ _ _ two_le le_256 h => quotient_remainder_of_divmod (legalRadix_iff.2 ⟨two_le, le_256⟩) h,
    fun _ _ outside => exec_divmod_of_illegal_radix (legalRadix_eq_false_of_outside outside),
    encode_divmod,
    fun _ opc => illegal_radix_iff (m := .divmod) (.inr rfl) opc⟩

/-! ## LDB and STB (43_bigint.md R174, R175) -/

/-- LDB leaves the value of the input bytes as 00_scope.md R8 writes it (43_bigint.md R174). -/
theorem exec_ldb (s : State) :
    exec .ldb s = .next { s with acc := positional 256 (s.input.map BitVec.toNat) }.succeed := by
  rw [positional_eq_valueIn]
  rfl

/-- Settles O8: the loop of LDB computes the sum of R8. -/
theorem ldbLoadsPositionalValue : Obligations.LdbLoadsPositionalValue :=
  ⟨fun s _ => exec_ldb s, rfl⟩

/-- STB has `min_length` elements, or more when the value needs them (43_bigint.md R175). -/
theorem length_outputOf_stb (m : BitVec 16) (s : State) :
    (outputOf (.stb m) s).length = max m.toNat (bigEndian 256 s.acc).length := by
  rw [outputOf, List.length_append, List.length_replicate, List.length_map]
  omega

/-- An output that fits: the padded bytes are stored and ACC is left 0 (43_bigint.md R175). -/
theorem exec_stb_of_fits {s : State} {m : BitVec 16}
    (fits : max m.toNat (bigEndian 256 s.acc).length ≤ s.cfg.outputLimit) :
    exec (.stb m) s = .next ({ s with acc := 0 }.setOutput (outputOf (.stb m) s)
      (max m.toNat (bigEndian 256 s.acc).length)).succeed := by
  have out_eq : outputOf (.stb m) s =
      List.replicate (m.toNat - (toBase256 s.acc).length) 0 ++ toBase256 s.acc := by
    simp only [outputOf, ← bigEndian_256, List.length_map]
  rw [← length_outputOf_stb] at fits ⊢
  exact emit_eq_setOutput out_eq fits

/-- The word of STB (30_encoding.md R94). -/
theorem encode_stb (m : BitVec 16) : encode (.stb m) = BitVec.ofNat 32 (0x40000000 + m.toNat) := by
  rw [encode, wordOf_eq_ofNat]
  simp

/-- Settles O9: the output is `outputOf` of STB, stored whole. -/
theorem stbStoresPaddedBytes : Obligations.StbStoresPaddedBytes :=
  ⟨fun _ _ fits => exec_stb_of_fits fits, encode_stb⟩

/-! ## LDD (43_bigint.md R176) -/

/-- An error that keeps the output and leaves ACC = 0 (60_exceptions.md R237, R238). -/
theorem raise_eq_complete_acc {m : Option Mnemonic} {e : Raised} (s : State) (output : dropsOutput m e = false)
    (acc : dropsAcc m e = true) : raise m e s = ({ s with acc := 0 } : State).complete e.code e.char e.pos := by
  simp [raise, output, acc]

/-- The base is checked before the input is read (43_bigint.md R176). -/
theorem exec_ldd_of_illegal_base {s : State} {n : BitVec 16} (h : n.toNat < 2 ∨ 94 < n.toNat) :
    exec (.ldd n) s = .next (s.complete .invalidBase 0 0) := by
  simp only [exec, execLdd, legalBase_eq_false.2 h, Bool.false_eq_true, if_false]
  exact congrArg _ (raise_eq_complete s rfl rfl)

/-- Digits all below a legal base: their value is left in ACC (43_bigint.md R176). -/
theorem exec_ldd_of_digits {s : State} {n : BitVec 16} (legal : legalBase n = true)
    (digits : ∀ d ∈ s.input, d.toNat < n.toNat) :
    exec (.ldd n) s = .next { s with acc := positional n.toNat (s.input.map BitVec.toNat) }.succeed := by
  simp only [exec, execLdd, legal, if_true, scan_digits digits, positional_eq_valueIn, fromDigits]

theorem digitBelow_eq_none_iff {n : Nat} {d : Byte} : digitBelow n d = none ↔ n ≤ d.toNat := by
  simp [digitBelow]

/-- Digits below the base up to element `k`, which is not, stop the scan there (43_bigint.md R176). -/
theorem scan_first_not_below {n pos k : Nat} {x : List Byte} {d : Byte} (at_k : x[k]? = some d) (ge : n ≤ d.toNat)
    (before : ∀ j < k, ∀ c ∈ x[j]?, c.toNat < n) : scan (digitBelow n) pos x = .error (d, pos + k) :=
  scan_eq_error.2 ⟨k, rfl, at_k, digitBelow_eq_none_iff.2 ge, fun j lt c at_j =>
    mt digitBelow_eq_none_iff.1 (before j lt c at_j).not_ge⟩

/-- The first element not below a legal base is reported with its index, and ACC is left 0 (43_bigint.md R176,
60_exceptions.md R238). -/
theorem exec_ldd_of_first_not_below {s : State} {n : BitVec 16} {k : Nat} {d : Byte} (legal : legalBase n = true)
    (at_k : s.input[k]? = some d) (ge : n.toNat ≤ d.toNat)
    (before : ∀ j < k, ∀ c ∈ s.input[j]?, c.toNat < n.toNat) :
    exec (.ldd n) s = .next (({ s with acc := 0 } : State).complete .invalidDigit d (BitVec.ofNat 32 k)) := by
  simp only [exec, execLdd, legal, if_true, scan_first_not_below at_k ge before, Nat.zero_add]
  exact congrArg _ (raise_eq_complete_acc s rfl rfl)

/-- The word of LDD (30_encoding.md R94). -/
theorem encode_ldd (n : BitVec 16) : encode (.ldd n) = BitVec.ofNat 32 (0x50000000 + n.toNat) := by
  rw [encode, wordOf_eq_ofNat]
  simp

/-- Settles O10: R231 splits the bases and the first element not below the base, if any, the inputs. -/
theorem lddLoadsDigitsOrReportsFirstBad : Obligations.LddLoadsDigitsOrReportsFirstBad :=
  ⟨fun _ _ illegal => exec_ldd_of_illegal_base illegal,
    fun _ _ _ two_le le_94 digits => exec_ldd_of_digits (legalBase_iff.2 ⟨two_le, le_94⟩) digits,
    fun _ _ _ _ _ two_le le_94 at_k ge before =>
      exec_ldd_of_first_not_below (legalBase_iff.2 ⟨two_le, le_94⟩) at_k ge before,
    encode_ldd⟩

/-! ## STD (43_bigint.md R177) -/

/-- The base is checked before anything else happens (43_bigint.md R177). -/
theorem exec_std_of_illegal_base {s : State} {n : BitVec 16} (h : n.toNat < 2 ∨ 94 < n.toNat) :
    exec (.std n) s = .next (s.dropOutput.complete .invalidBase 0 0) := by
  simp only [exec, execStd, legalBase_eq_false.2 h, Bool.false_eq_true, if_false]
  exact congrArg _ (raise_eq_complete_dropOutput s rfl rfl)

/-- A legal base and an output that fits: the digits are stored and ACC is left 0 (43_bigint.md R177). -/
theorem exec_std_of_legal_base {s : State} {n : BitVec 16} (legal : legalBase n = true)
    (fits : (bigEndian n.toNat s.acc).length ≤ s.cfg.outputLimit) :
    exec (.std n) s = .next ({ s with acc := 0 }.setOutput (outputOf (.std n) s)
      (bigEndian n.toNat s.acc).length).succeed := by
  have length_eq : (outputOf (.std n) s).length = (bigEndian n.toNat s.acc).length := List.length_map _
  simp only [exec, execStd, legal, if_true, ← bigEndian_eq_digitsOf (legalBase_iff.1 legal).1]
  rw [← length_eq] at fits ⊢
  exact emit_eq_setOutput rfl fits

/-- The word of STD (30_encoding.md R94). -/
theorem encode_std (n : BitVec 16) : encode (.std n) = BitVec.ofNat 32 (0x60000000 + n.toNat) := by
  rw [encode, wordOf_eq_ofNat]
  simp

/-- Settles O11: R231 splits the bases, and the output is `outputOf` of STD, stored whole. -/
theorem stdStoresDigits : Obligations.StdStoresDigits :=
  ⟨fun _ _ illegal => exec_std_of_illegal_base illegal,
    fun _ _ two_le le_94 fits => exec_std_of_legal_base (legalBase_iff.2 ⟨two_le, le_94⟩) fits,
    encode_std⟩

end Sys2Proof.Proofs
end

section
/-! PROOFS. Sequencing and completion (44_control.md): NOP (R215), acceptance of a word (R211), and the register reads and
writes while the engine is idle and while it is busy (R217, R218). -/

namespace Sys2Proof.Proofs

open Sys2Proof Sys2Proof.Machine Sys2Proof.Laws

/-! ## NOP (44_control.md R215) -/

/-- NOP only completes (44_control.md R215). -/
theorem exec_nop (s : State) : exec .nop s = .next s.succeed := rfl

/-- The row of NOP fixes every bit and it has no operand, so only the word 0 selects it (30_encoding.md R92 format Z). -/
theorem illegal_iff_ne_zero_of_nop {w : Word} (opc : w >>> 28 = 0#32) : (∃ e, decode w = .error e) ↔ w ≠ 0#32 := by
  have opc_nop : (fieldOPC w).toNat = opcode .nop := shift_28_eq_row_iff.1 opc
  have selects : w &&& (rowOf .nop).mask = w := BitVec.and_allOnes
  have bits : (rowOf .nop).bits = 0#32 := rfl
  rw [illegal_iff_of_opcode opc_nop, commandOf_wf_eq_false, selects, bits]
  simp only [reduceCtorEq, false_and, or_false]

/-- Settles O4: a word with OPC = 0 is held against the row of NOP alone. -/
theorem nopOnlyCompletes : Obligations.NopOnlyCompletes :=
  ⟨exec_nop, rfl, fun _ opc => illegal_iff_ne_zero_of_nop opc⟩

/-! ## A busy engine (70_reset_and_hazards.md R276) -/

/-- While BUSY = 1 an access that reads no STATUS is refused (70_reset_and_hazards.md R276). -/
theorem hostAccess_refused_of_busy {a : HostAccess} {s : State} {w : Word} (busy : s.cmdr = some w)
    (other : readsStatus a s = false) : hostAccess a s = .refused .busyAccess := by
  rw [hostAccess_of_busy a busy, accessBusy, other]
  rfl

/-- No write reads STATUS, so while BUSY = 1 each is refused (44_control.md R218). -/
theorem writeReg_of_busy {s : State} {w : Word} (n : Nat) (v : Word) (busy : s.cmdr = some w) :
    hostAccess (.writeReg n v) s = .refused .busyAccess :=
  hostAccess_refused_of_busy busy rfl

/-- Only register 1 is STATUS, so while BUSY = 1 a read of another is refused (44_control.md R217). -/
theorem readReg_of_busy {s : State} {w : Word} {n : Nat} (busy : s.cmdr = some w) (ne_status : n ≠ 1) :
    hostAccess (.readReg n) s = .refused .busyAccess :=
  hostAccess_refused_of_busy busy (decide_eq_false ne_status)

/-! ## Register writes of an idle engine (44_control.md R211, R218) -/

theorem writeReg_of_idle {s : State} (n : Nat) (v : Word) (idle : s.cmdr = none) :
    hostAccess (.writeReg n v) s = writeRegIdle n v s :=
  hostAccess_of_idle _ idle

/-- A write to CMD is acceptance, whatever the word (44_control.md R211). -/
theorem writeCmd_of_idle {s : State} (w : Word) (idle : s.cmdr = none) :
    hostAccess (.writeReg 0 w) s = .next (accept w s) :=
  writeReg_of_idle 0 w idle

theorem allowsLength_iff {cfg : Config} {v : Word} : allowsLength cfg v = true ↔ ∀ c ∈ cfg.cap, v.toNat ≤ c := by
  unfold allowsLength
  split
  · next unbounded => simp [unbounded]
  · next c bounded => simp [bounded]

/-- ILEN takes a length up to and including CAP (10_state.md R32, 44_control.md R218). -/
theorem writeIlen_of_idle {s : State} {v : Word} (idle : s.cmdr = none) (fits : ∀ c ∈ s.cfg.cap, v.toNat ≤ c) :
    hostAccess (.writeReg 2 v) s = .next { s with ilen := v } := by
  rw [writeReg_of_idle 2 v idle]
  exact if_pos (allowsLength_iff.2 fits)

/-- A write to a read-only register is ignored (44_control.md R218). -/
theorem writeReadOnly_of_idle {s : State} {n : Nat} (v : Word) (idle : s.cmdr = none)
    (readOnly : n = 1 ∨ n = 3 ∨ n = 4 ∨ n = 5 ∨ n = 6) : hostAccess (.writeReg n v) s = .next s := by
  rw [writeReg_of_idle n v idle]
  rcases readOnly with rfl | rfl | rfl | rfl | rfl <;> rfl

/-- Settles O34: a write to CMD is `accept` while idle and refused like every write while busy. -/
theorem acceptanceLatchesTheWord : Obligations.AcceptanceLatchesTheWord :=
  ⟨fun w _ idle => writeCmd_of_idle w idle, fun w _ _ busy => writeReg_of_busy 0 w busy⟩

/-- Settles O51: one lemma for each kind of register while idle, and one for all of them while busy. -/
theorem registerWritesByNumber : Obligations.RegisterWritesByNumber :=
  ⟨fun _ v idle => ⟨writeCmd_of_idle v idle, writeIlen_of_idle idle, fun _ => writeReadOnly_of_idle v idle⟩,
    fun _ _ v n busy => writeReg_of_busy n v busy⟩

/-! ## Register reads (44_control.md R217) -/

theorem readReg_of_idle {s : State} (n : Nat) (idle : s.cmdr = none) :
    hostAccess (.readReg n) s = readRegIdle n s :=
  hostAccess_of_idle _ idle

/-- STATUS may be read at any time: an idle engine draws no free value and a busy one draws one (44_control.md R217). -/
theorem exists_readStatus (s : State) : ∃ (v : Word) (d : Nat),
    hostAccess (.readReg 1) s = .next { s with reads := s.reads ++ [.reg 1 v], draws := d } := by
  rcases Option.eq_none_or_eq_some s.cmdr with idle | ⟨w, busy⟩
  · exact ⟨s.statusIdle, s.draws, readStatus_of_idle idle⟩
  · exact ⟨_, _, readStatus_of_busy busy⟩

/-- Settles O50: idle, each read is its case of `readRegIdle`; busy, STATUS is the only one that can be read. -/
theorem registerReadsReturnTheRegisters : Obligations.RegisterReadsReturnTheRegisters :=
  ⟨fun _ idle => ⟨readReg_of_idle 0 idle, readStatus_of_idle idle, readReg_of_idle 2 idle, readReg_of_idle 3 idle,
      readReg_of_idle 4 idle, readReg_of_idle 5 idle, readReg_of_idle 6 idle⟩,
    exists_readStatus, fun _ _ _ busy two_le _ => readReg_of_busy busy (by omega)⟩

end Sys2Proof.Proofs
end

section
/-! PROOFS. Errors (60_exceptions.md): what each command can raise (R231 to R235), and what a failing command leaves in
the output (R237), in ACC and in RES (R238). -/

namespace Sys2Proof.Proofs

open Sys2Proof Sys2Proof.Machine Sys2Proof.Laws

/-! ## What a command can raise (60_exceptions.md R231 to R236) -/

/-- The base operand of a command that has one (60_exceptions.md R231). -/
def baseOf : Instr → Option (BitVec 16)
  | .enc b | .dec b | .ldd b | .std b | .dig _ b => some b
  | _ => none

theorem baseOf_eq_some_iff {i : Instr} {b : BitVec 16} : baseOf i = some b ↔
    i = .enc b ∨ i = .dec b ∨ i = .ldd b ∨ i = .std b ∨ ∃ c, i = .dig c b := by
  cases i <;> simp [baseOf]

/-- The errors a command can raise, and on whose behalf (60_exceptions.md R231 to R234). -/
inductive Raises (i : Instr) : Option Mnemonic → Raised → Prop
  | invalidBase (b : BitVec 16) (base : baseOf i = some b) (illegal : ¬ legalBase b = true) :
      Raises i (some i.mnemonic) .invalidBase
  | invalidCharacter (c : Byte) (pos : Len) (judges : i.mnemonic = .dec ∨ i.mnemonic = .dig) :
      Raises i (some i.mnemonic) (.invalidCharacter c pos)
  | invalidDigit (d : Byte) (pos : Len) (judges : i.mnemonic = .ldd) : Raises i (some i.mnemonic) (.invalidDigit d pos)
  | illegalCommand : Raises i none .illegalCommand

theorem err_of_emit {z : Nat} {pad : Byte} {body : List Byte} {s t : State} (h : emit z pad body s = .next t) :
    t.err = .ok := by
  obtain ⟨-, rfl⟩ := emit_eq_next.1 h
  rfl

/-- STB has no operand to refuse (60_exceptions.md R235, R237). -/
theorem err_of_stb {m : BitVec 16} {s t : State} (h : exec (.stb m) s = .next t) : t.err = .ok :=
  err_of_emit h

/-- A command that completes with a code other than 0 has raised one of its errors (60_exceptions.md R236). -/
theorem exec_raises {i : Instr} {s t : State} (h : exec i s = .next t) (failed : t.err ≠ .ok) :
    ∃ m e, Raises i m e ∧ t = raise m e s := by
  cases i with
  | nop | clr | ldb => cases h; exact absurd rfl failed
  | stb m => exact absurd (err_of_stb h) failed
  | muladd | divmod | sym =>
    simp only [exec, execMuladd, execDivmod, execSym] at h
    split at h <;> cases h
    · exact absurd rfl failed
    · exact ⟨_, _, .illegalCommand, rfl⟩
  | enc | std =>
    simp only [exec, execEnc, execStd] at h
    split at h
    · exact absurd (err_of_emit h) failed
    · next illegal => cases h; exact ⟨_, _, .invalidBase _ rfl illegal, rfl⟩
  | dec =>
    simp only [exec, execDec] at h
    split at h
    · split at h
      · cases h; exact ⟨_, _, .invalidCharacter _ _ (.inl rfl), rfl⟩
      · exact absurd (err_of_emit h) failed
    · next illegal => cases h; exact ⟨_, _, .invalidBase _ rfl illegal, rfl⟩
  | ldd =>
    simp only [exec, execLdd] at h
    split at h
    · split at h <;> cases h
      · exact ⟨_, _, .invalidDigit _ _ rfl, rfl⟩
      · exact absurd rfl failed
    · next illegal => cases h; exact ⟨_, _, .invalidBase _ rfl illegal, rfl⟩
  | dig =>
    simp only [exec, execDig] at h
    split at h
    · split at h <;> cases h
      · exact ⟨_, _, .invalidCharacter _ _ (.inr rfl), rfl⟩
      · exact absurd rfl failed
    · next illegal => cases h; exact ⟨_, _, .invalidBase _ rfl illegal, rfl⟩

/-! ## ACC and RES after an error (60_exceptions.md R238) -/

/-- Of all the errors, InvalidCharacter in DEC and InvalidDigit leave ACC = 0 (60_exceptions.md R238). -/
theorem dropsAcc_of_raises {i : Instr} {m : Option Mnemonic} {e : Raised} (raises : Raises i m e) :
    dropsAcc m e = true ↔ e.code = .invalidCharacter ∧ i.mnemonic = .dec ∨ e.code = .invalidDigit := by
  cases raises with
  | invalidDigit _ _ judges => simp [dropsAcc, Raised.code, judges]
  | invalidBase | invalidCharacter | illegalCommand => simp [dropsAcc, Raised.code]

/-- The code and the command say what a failing command leaves in ACC (60_exceptions.md R238). -/
theorem acc_of_error {i : Instr} {s t : State} (h : exec i s = .next t) (failed : t.err ≠ .ok) :
    t.acc = if t.err = .invalidCharacter ∧ i.mnemonic = .dec ∨ t.err = .invalidDigit then 0 else s.acc := by
  obtain ⟨m, e, raises, rfl⟩ := exec_raises h failed
  simp only [raise_acc, raise_err, dropsAcc_of_raises raises]

/-- A failing command leaves RES alone (60_exceptions.md R238). -/
theorem res_of_error {i : Instr} {s t : State} (h : exec i s = .next t) (failed : t.err ≠ .ok) : t.res = s.res := by
  by_contra changed
  exact failed (res_changed h changed).1

/-! ## InvalidBase (60_exceptions.md R231) -/

/-- A base that is not legal is reported whatever else is wrong (60_exceptions.md R231, R241). -/
theorem err_of_illegal_base {i : Instr} {b : BitVec 16} {s t : State} (base : baseOf i = some b)
    (illegal : b.toNat < 2 ∨ 94 < b.toNat) (h : exec i s = .next t) : t.err = .invalidBase := by
  rcases baseOf_eq_some_iff.1 base with rfl | rfl | rfl | rfl | ⟨c, rfl⟩
  · rw [exec_enc_of_illegal_base illegal] at h; cases h; rfl
  · rw [exec_dec_of_illegal_base illegal] at h; cases h; rfl
  · rw [exec_ldd_of_illegal_base illegal] at h; cases h; rfl
  · rw [exec_std_of_illegal_base illegal] at h; cases h; rfl
  · rw [exec_dig_of_illegal_base illegal] at h; cases h; rfl

/-- Only a base that is not legal raises InvalidBase (60_exceptions.md R231). -/
theorem illegal_base_of_err {i : Instr} {s t : State} (h : exec i s = .next t) (err : t.err = .invalidBase) :
    ∃ b, (b.toNat < 2 ∨ 94 < b.toNat) ∧ baseOf i = some b := by
  obtain ⟨m, e, raises, rfl⟩ := exec_raises h (by simp [err])
  cases raises with
  | invalidBase b base illegal => exact ⟨b, legalBase_eq_false.1 (Bool.eq_false_of_not_eq_true illegal), base⟩
  | invalidCharacter | invalidDigit | illegalCommand => simp [Raised.code] at err

/-- Settles O43: the base decides the code in both directions, and the code decides what is recorded and kept. -/
theorem invalidBaseExactlyOutsideTheRange : Obligations.InvalidBaseExactlyOutsideTheRange := by
  intro i s t h
  simp only [← baseOf_eq_some_iff]
  refine ⟨⟨illegal_base_of_err h, fun ⟨b, illegal, base⟩ => err_of_illegal_base base illegal h⟩, fun err => ?_⟩
  have failed : t.err ≠ .ok := by simp [err]
  obtain ⟨char_eq, pos_eq⟩ := (exec_effect h).records (by simp [err]) (by simp [err])
  exact ⟨char_eq, pos_eq, by simp [acc_of_error h failed, err], res_of_error h failed⟩

/-! ## The output after an error (60_exceptions.md R237) -/

/-- Settles O44: ENC, DEC and STD are output commands that can fail, STB one that cannot, and DIG and LDD are none. -/
theorem failureLeavesNoPartialOutput : Obligations.FailureLeavesNoPartialOutput := by
  refine ⟨fun i s t three h failed => ?_, fun m s t h => err_of_stb h, fun w e s t illegal h => ?_,
    fun i s t two h => ?_⟩
  · have writes : writesOutput i.mnemonic = true := writesOutput_iff.2 (by tauto)
    obtain ⟨olen_eq, obuf_eq⟩ := output_of_error h writes failed
    exact ⟨olen_eq, fun k => by rw [obuf_eq, read_nil]⟩
  · rw [runWord_of_illegal s illegal] at h
    cases h
    exact ⟨rfl, rfl, rfl⟩
  · have quiet : writesOutput i.mnemonic = false := by
      rcases two with dig | ldd
      · rw [dig]; rfl
      · rw [ldd]; rfl
    exact output_kept h quiet

/-! ## ACC and RES after a word that fails (60_exceptions.md R234, R238) -/

/-- Running a word is running the command it is the word of, or the completion of an illegal word
(44_control.md R213). -/
theorem runWord_cases {w : Word} {s t : State} (h : runWord w s = .next t) :
    (∃ i, decode w = .ok i ∧ exec i s = .next t) ∨
      (∃ e, decode w = .error e) ∧ t = raise none .illegalCommand s := by
  cases decoded : decode w <;> simp only [runWord, decoded] at h
  · next e => cases h; exact .inr ⟨⟨e, rfl⟩, rfl⟩
  · next i => exact .inl ⟨i, rfl, h⟩

/-- Settles O45: each clause on a command is `acc_of_error` at its code, and a word is illegal or a command's. -/
theorem accAndResAfterFailure : Obligations.AccAndResAfterFailure := by
  refine ⟨fun i s t h err => ?_, fun b s t h err => ?_, fun n s t h err => ?_, fun c b s t h err => ?_,
    fun w s t h err => ?_, fun w s t h failed => ?_⟩
  · simp [acc_of_error h, err]
  · simp [acc_of_error h, err, Instr.mnemonic]
  · simp [acc_of_error h, err]
  · simp [acc_of_error h, err, Instr.mnemonic]
  · rcases runWord_cases h with ⟨i, -, run⟩ | ⟨-, rfl⟩
    · simp [acc_of_error run, err]
    · rfl
  · rcases runWord_cases h with ⟨i, -, run⟩ | ⟨-, rfl⟩
    · exact res_of_error run failed
    · rfl

end Sys2Proof.Proofs
end

section
/-! PROOFS. Reset and the busy interval (70_reset_and_hazards.md): what the host may do while a command is in progress
(R276), and the state that the reset input leaves (R270, R271). -/

namespace Sys2Proof.Proofs

open Sys2Proof Sys2Proof.Machine Sys2Proof.Laws

/-! ## The busy interval (70_reset_and_hazards.md R276) -/

/-- Only register 1, by its number or by its address, is STATUS (10_state.md R30, 20_memory.md R65). -/
theorem readsStatus_eq_false {a : HostAccess} {s : State} (number : a ≠ .readReg 1)
    (address : ∀ addr bytes, a = .readAddr addr bytes → registerAt s.cfg addr bytes ≠ some 1) :
    readsStatus a s = false := by
  cases a with
  | readReg n => exact decide_eq_false fun status => number (congrArg _ status)
  | readAddr addr bytes => exact decide_eq_false (address addr bytes rfl)
  | writeReg | writeAddr | readIbuf | writeIbuf | readObuf | writeObuf => rfl

/-- OUT begins with a read of OLEN, which a busy engine refuses (30_encoding.md R102). -/
theorem hostOut_of_busy {s : State} {w : Word} (busy : s.cmdr = some w) : hostOut s = .refused .busyAccess := by
  rw [hostOut, hostAccesses, readReg_of_busy busy (by decide), andThen]

/-- MOVE begins with OUT (30_encoding.md R102). -/
theorem hostMove_of_busy {s : State} {w : Word} (busy : s.cmdr = some w) : hostMove s = .refused .busyAccess := by
  rw [hostMove, hostOut_of_busy busy, andThen]

/-- Settles O49: the word read is `statusOf` with BUSY = 1, and OUT and MOVE stop at their first access. -/
theorem onlyStatusIsReadableWhileBusy : Obligations.OnlyStatusIsReadableWhileBusy := by
  refine fun s w busy => ⟨?_, fun a number address => ?_, hostOut_of_busy busy, hostMove_of_busy busy⟩
  · exact ⟨_, _, readStatus_of_busy busy, statusOf_bit_busy .., statusOf_bit_done .., statusOf_bit_reserved ..,
      statusOf_shift_8 ..⟩
  · exact hostAccess_refused_of_busy busy (readsStatus_eq_false number address)

/-! ## The reset input (70_reset_and_hazards.md R270, R271) -/

/-- After the reset input STATUS shows Z alone (10_state.md R42). -/
theorem statusOf_applyReset (s : State) : statusOf (applyReset s).busy (applyReset s).done (applyReset s).zero
    (applyReset s).err.bits = 0x00000004#32 := by
  have idle : (applyReset s).busy = false := busy_eq_false.2 (applyReset_cmdr s)
  have zero : (applyReset s).zero = true := zero_eq_true.2 (applyReset_acc s)
  rw [idle, zero, applyReset_done, applyReset_err]
  decide

/-- Settles O58: the state left is `applyReset s`, which is idle whatever `s` was doing, so a write to CMD is
acceptance. -/
theorem resetInputGivesTheResetState : Obligations.ResetInputGivesTheResetState := by
  refine fun s => ⟨s.host, s.reads, s.epoch + 1, s.draws, hostAction_reset s, fun t h => ?_⟩
  rw [hostAction_reset] at h
  cases h
  exact ⟨applyReset_cmdr s, applyReset_done s, statusOf_applyReset s,
    fun w => ⟨_, writeCmd_of_idle w (applyReset_cmdr s), accept_cmdr _ w⟩⟩

end Sys2Proof.Proofs
end

section
/-! PROOFS. The command word both ways (30_encoding.md R98, R100): a well-formed command decodes from its word, and a
legal word is the word of the command it decodes to. -/

namespace Sys2Proof.Proofs

open Sys2Proof Sys2Proof.Machine Sys2Proof.Laws

/-! ## From a command to its word -/

theorem opcode_of_encode (i : Instr) : (fieldOPC (encode i)).toNat = opcode i.mnemonic := by
  cases i <;> simp only [encode, fieldOPC_wordOf] <;> rfl

/-- The word of a command selects the command's row (30_encoding.md R92, R94). -/
theorem encode_selects_row (i : Instr) : encode i &&& (rowOf i.mnemonic).mask = (rowOf i.mnemonic).bits := by
  cases i with
  | nop => exact EncodesItsRow.nop
  | enc base => exact EncodesItsRow.enc base
  | dec base => exact EncodesItsRow.dec base
  | ldb => exact EncodesItsRow.ldb
  | stb minLength => exact EncodesItsRow.stb minLength
  | ldd n => exact EncodesItsRow.ldd n
  | std n => exact EncodesItsRow.std n
  | muladd m a => exact EncodesItsRow.muladd m a
  | divmod d => exact EncodesItsRow.divmod d
  | sym digit => exact EncodesItsRow.sym digit
  | dig c base => exact EncodesItsRow.dig c base
  | clr => exact EncodesItsRow.clr

/-- The operands are read back from the fields they were put in (30_encoding.md R93). -/
theorem commandOf_encode (i : Instr) : commandOf (encode i) i.mnemonic = i := by
  cases i <;> simp [commandOf, Instr.mnemonic, encode, fieldAddend_eq, fieldChar_eq]

theorem decode_encode {i : Instr} (wf : i.wf = true) : decode (encode i) = .ok i :=
  (decode_eq_ok_iff_of_opcode (opcode_of_encode i)).2
    ⟨encode_selects_row i, (commandOf_encode i).symm ▸ wf, commandOf_encode i⟩

/-! ## From a word to its command -/

/-- With its upper half 0, B is the addend of MULADD (30_encoding.md R92 format AB). -/
theorem fieldB_of_high_zero {w : Word} (high : fieldBHigh w = 0) : fieldB w = (fieldAddend w).setWidth 16 := by
  have split_B : fieldB w = fieldBHigh w ++ fieldAddend w := by
    rw [fieldBHigh_eq, fieldAddend_eq]
    refine BitVec.eq_of_getLsbD_eq fun k hk => ?_
    rw [BitVec.getLsbD_append]
    interval_cases k <;> simp
  rw [split_B, high]
  exact (BitVec.setWidth_eq_append (by decide)).symm

/-- With its top bit 0, A is the character of DIG (30_encoding.md R92 format CB). -/
theorem fieldA_of_top_zero {w : Word} (top : fieldATop w = 0) : fieldA w = (fieldChar w).setWidth 9 := by
  have split_A : fieldA w = fieldATop w ++ fieldChar w := by
    rw [fieldATop_eq, fieldChar_eq]
    refine BitVec.eq_of_getLsbD_eq fun k hk => ?_
    rw [BitVec.getLsbD_append]
    interval_cases k <;> simp
  rw [split_A, top]
  exact (BitVec.setWidth_eq_append (by decide)).symm

/-- The word of the command that a row reads from a word has the row's OPC and the word's own A and B, when the row's
must-be-zero bits are 0: no bit is dropped (30_encoding.md R98). -/
theorem encode_commandOf {w : Word} {m : Mnemonic} (zero : formatZero w m = true) :
    encode (commandOf w m) = wordOf (BitVec.ofNat 4 (opcode m)) (fieldA w) (fieldB w) := by
  cases m with
  | nop | ldb | clr =>
    obtain ⟨a, b⟩ : fieldA w = 0 ∧ fieldB w = 0 := by simpa [formatZero] using zero
    rw [a, b]; rfl
  | enc | dec | stb | ldd | std =>
    have a : fieldA w = 0 := by simpa [formatZero] using zero
    rw [a]; rfl
  | divmod | sym =>
    have b : fieldB w = 0 := by simpa [formatZero] using zero
    rw [b]; rfl
  | muladd =>
    rw [fieldB_of_high_zero (by simpa [formatZero] using zero)]; rfl
  | dig =>
    rw [fieldA_of_top_zero (by simpa [formatZero] using zero)]; rfl

/-- A legal word is the word of the command it decodes to, and that command is well formed. -/
theorem encode_of_decode {w : Word} {i : Instr} (legal : decode w = .ok i) : i.wf = true ∧ encode i = w := by
  rcases Nat.lt_or_ge (fieldOPC w).toNat 12 with lt | reserved
  · obtain ⟨m, opc⟩ := exists_opcode_eq lt
    obtain ⟨selects, wf, rfl⟩ := (decode_eq_ok_iff_of_opcode opc.symm).1 legal
    obtain ⟨rsv, zeros⟩ := (selects_row_iff opc.symm).1 selects
    have opc_eq : BitVec.ofNat 4 (opcode m) = fieldOPC w := by simp [opc]
    exact ⟨wf, by rw [encode_commandOf (formatZero_iff.2 zeros), opc_eq, wordOf_fields rsv]⟩
  · simp [decode_of_reserved reserved] at legal

/-- Settles O1: both directions go through the row of the word's OPC. -/
theorem decodeInvertsEncode : Obligations.DecodeInvertsEncode :=
  ⟨fun _ wf => decode_encode wf, fun _ _ legal => encode_of_decode legal⟩

/-- Settles O3: the decoder evaluates on each of the twelve words. -/
theorem sampleWordsDecode : Obligations.SampleWordsDecode := by
  unfold Obligations.SampleWordsDecode
  decide

end Sys2Proof.Proofs
end

section
/-! PROOFS. The invariant (10_state.md, 20_memory.md, 44_control.md): it holds after reset, and commands, host accesses
and the reset input keep it. -/

namespace Sys2Proof.Proofs

open Sys2Proof Sys2Proof.Machine Sys2Proof.Laws

/-- The invariant says nothing of the host's side: its turns, its reads and the free values drawn. -/
theorem inv_of_hostSide {s : State} (inv : s.Inv) (host : List HostTurn) (reads : List HostRead) (draws : Nat) :
    State.Inv { s with host := host, reads := reads, draws := draws } :=
  ⟨inv.config, inv.ibufCanonical, inv.ibufWithinCap, inv.ilenWithinCap, inv.obufCanonical, inv.obufIsOutput,
    inv.olenWithinLimit, inv.recordsNothing, inv.inProgress⟩

/-- The reset state meets the invariant, whatever the host's side and the resets so far (10_state.md R42). -/
theorem inv_of_reset {cfg : Config} (ok : cfg.Ok) (host : List HostTurn) (reads : List HostRead) (epoch draws : Nat) :
    State.Inv { State.resetWith cfg with host := host, reads := reads, epoch := epoch, draws := draws } where
  config := ok
  ibufCanonical := rfl
  ibufWithinCap := nofun
  ilenWithinCap := allowsLength_iff.2 fun c _ => Nat.zero_le c
  obufCanonical := rfl
  obufIsOutput := fun _ => rfl
  olenWithinLimit := Nat.zero_le _
  recordsNothing := fun _ _ _ => ⟨rfl, rfl⟩
  inProgress := fun busy => absurd rfl busy

/-- Settles O59: reset is `inv_of_reset` with nothing on the host's side, and the reference parameters are allowed. -/
theorem resetMeetsTheInvariant : Obligations.ResetMeetsTheInvariant :=
  ⟨inv_of_reset ⟨referenceConfig_alphabetOk, nofun, nofun⟩ [] [] 0 0, rfl, fun _ ok => inv_of_reset ok [] [] 0 0⟩

/-- A write below CAP keeps every cell of IBUF below CAP (20_memory.md R64). -/
theorem ibufWithinCap_write {s : State} (inv : s.Inv) {i : Nat} (v : Byte) (below : s.cfg.hasCell i = true) (j : Nat)
    (u : Byte) (read : (s.ibuf.write i v).read j = some u) : s.cfg.hasCell j = true := by
  by_cases same : j = i
  · rwa [same]
  · exact inv.ibufWithinCap j u ((read_write_other s.ibuf v same).symm.trans read)

theorem inv_of_hostEffect {s t : State} (inv : s.Inv) (effect : HostEffect s t) : t.Inv := by
  cases effect with
  | nothing => exact inv
  | read v => exact inv_of_hostSide inv s.host (s.reads ++ [v]) s.draws
  | freeRead v => exact inv_of_hostSide inv s.host (s.reads ++ [v]) (s.draws + 1)
  | accepted w =>
    exact ⟨inv.config, inv.ibufCanonical, inv.ibufWithinCap, inv.ilenWithinCap, inv.obufCanonical, inv.obufIsOutput,
      inv.olenWithinLimit, nofun, fun _ => ⟨rfl, rfl⟩⟩
  | length v fits =>
    exact ⟨inv.config, inv.ibufCanonical, inv.ibufWithinCap, fits, inv.obufCanonical, inv.obufIsOutput,
      inv.olenWithinLimit, inv.recordsNothing, inv.inProgress⟩
  | cell i v below =>
    exact ⟨inv.config, wf_write s.ibuf i v inv.ibufCanonical, ibufWithinCap_write inv v below, inv.ilenWithinCap,
      inv.obufCanonical, inv.obufIsOutput, inv.olenWithinLimit, inv.recordsNothing, inv.inProgress⟩

theorem inv_of_applyReset {s : State} (inv : s.Inv) : (applyReset s).Inv :=
  inv_of_reset inv.config s.host s.reads (s.epoch + 1) s.draws

/-- What the invariant says of OBUF and OLEN (10_state.md R39). -/
def OutputInv (s : State) : Prop :=
  s.obuf.wf = true ∧ (∀ i, (s.obuf.read i).isSome = decide (i < s.olen.toNat)) ∧ s.olen.toNat ≤ s.cfg.outputLimit

theorem outputInv_of_inv {s : State} (inv : s.Inv) : OutputInv s :=
  ⟨inv.obufCanonical, inv.obufIsOutput, inv.olenWithinLimit⟩

/-- A command leaves the old output or a whole new one within the limit (20_memory.md R68). -/
theorem outputInv_of_commandEffect {s t : State} (inv : OutputInv s) (effect : CommandEffect s t) : OutputInv t := by
  unfold OutputInv at *
  rw [cfg_of_commandEffect effect]
  rcases effect.output with ⟨obuf_eq, olen_eq⟩ | ⟨out, obuf_eq, olen_eq, fits⟩
  · rwa [obuf_eq, olen_eq]
  · rw [obuf_eq, olen_eq, toNat_ofNat_of_le_limit fits]
    exact ⟨wf_cellsFrom 0 out, fun i => by rw [read_cellsFrom_zero, Bool.eq_iff_iff]; simp, fits⟩

theorem inv_of_commandEffect {s t : State} (inv : s.Inv) (effect : CommandEffect s t) : t.Inv := by
  obtain ⟨obufCanonical, obufIsOutput, olenWithinLimit⟩ := outputInv_of_commandEffect (outputInv_of_inv inv) effect
  have records := effect.records
  obtain ⟨_, _, _, _, _, _, _, rfl⟩ := effect.frame
  exact ⟨inv.config, inv.ibufCanonical, inv.ibufWithinCap, inv.ilenWithinCap, obufCanonical, obufIsOutput,
    olenWithinLimit, fun _ => records, fun busy => absurd rfl busy⟩

/-- Settles O60: a step is the engine's, none, or a turn of the host's side, and each keeps the invariant. -/
theorem stepKeepsTheInvariant : Obligations.StepKeepsTheInvariant := by
  intro s t inv h
  rcases step_eq_next h with ⟨w, -, -, run⟩ | ⟨-, -, rfl⟩ | ⟨turn, rest, -, -, act⟩
  · exact inv_of_commandEffect inv (runWord_effect run)
  · exact inv
  · exact hostAction_keeps State.Inv (fun _ _ => inv_of_hostEffect) (fun _ => inv_of_applyReset)
      (inv_of_hostSide inv rest s.reads s.draws) act

end Sys2Proof.Proofs
end

section
/-! PROOFS. Radix conversion (43_bigint.md section 3): the digits of a value of digits, the change of radix that keeps
leading zeros, its inverse and its length, and the inverse laws of the conversions. -/

namespace Sys2Proof.Proofs

open Sys2Proof Sys2Proof.Machine Sys2Proof.Laws

/-! ## Digits and values -/

/-- Leading zeros count nothing (00_scope.md R8). -/
theorem valueIn_replicate_zero_append (r k : Nat) (s : List Nat) :
    valueIn r (List.replicate k 0 ++ s) = valueIn r s := by
  induction k with
  | zero => rfl
  | succ k ih => rw [List.replicate_succ, List.cons_append, valueIn_cons, Nat.zero_mul, Nat.zero_add, ih]

/-- The value of the elements after the leading zeros is the value of all of them. -/
theorem valueIn_drop_leadingCount (r : Nat) (s : List Nat) : valueIn r (s.drop (leadingCount 0 s)) = valueIn r s := by
  conv_rhs => rw [← replicate_leadingCount_append_drop 0 s, valueIn_replicate_zero_append]

/-- The value of the digits of a number is the number (43_bigint.md section 3). -/
theorem valueIn_digitsOf {d : Nat} (hd : 2 ≤ d) (v : Nat) : valueIn d (digitsOf d v) = v := by
  rw [digitsOf_eq hd, valueIn_eq, List.reverse_reverse, Nat.ofDigits_digits]

/-- The most significant digit of a number is not 0 (43_bigint.md R187). -/
theorem head_digitsOf_ne_zero {d v : Nat} (hd : 2 ≤ d) : ∀ y ∈ (digitsOf d v).head?, y ≠ 0 := by
  intro y hy
  rw [digitsOf_eq hd, List.head?_reverse] at hy
  obtain ⟨nonempty, rfl⟩ := List.mem_getLast?_eq_getLast hy
  exact Nat.getLast_digit_ne_zero d (Nat.digits_ne_nil_iff_ne_zero.1 nonempty)

/-- Digits of the radix without a leading zero are the digits of their value (43_bigint.md section 3). -/
theorem digitsOf_valueIn {d : Nat} {s : List Nat} (hd : 2 ≤ d) (below : ∀ x ∈ s, x < d) (head : ∀ x ∈ s.head?, x ≠ 0) :
    digitsOf d (valueIn d s) = s := by
  have digits : Nat.digits d (Nat.ofDigits d s.reverse) = s.reverse := by
    refine Nat.digits_ofDigits d hd _ (fun x hx => below x (List.mem_reverse.1 hx)) fun nonempty => head _ ?_
    rw [← List.getLast?_reverse]
    exact List.getLast?_eq_getLast_of_ne_nil nonempty
  rw [digitsOf_eq hd, valueIn_eq, digits, List.reverse_reverse]

/-- The digits of a value of digits are those digits without the leading zeros. -/
theorem digitsOf_valueIn_eq_drop {d : Nat} {s : List Nat} (hd : 2 ≤ d) (below : ∀ x ∈ s, x < d) :
    digitsOf d (valueIn d s) = s.drop (leadingCount 0 s) := by
  rw [← valueIn_drop_leadingCount]
  exact digitsOf_valueIn hd (fun x hx => below x (List.mem_of_mem_drop hx)) (head_drop_leadingCount_ne 0 s)

/-- A number has at most `k` digits exactly when it is below the `k`-th power of the radix. -/
theorem length_digitsOf_le_iff {d k v : Nat} (hd : 2 ≤ d) : (digitsOf d v).length ≤ k ↔ v < d ^ k := by
  rw [digitsOf_eq hd, List.length_reverse, Nat.digits_length_le_iff hd]

/-- A larger radix never needs more digits. -/
theorem length_digitsOf_anti {d e : Nat} (hd : 2 ≤ d) (le : d ≤ e) (v : Nat) :
    (digitsOf e v).length ≤ (digitsOf d v).length := by
  rw [length_digitsOf_le_iff (hd.trans le)]
  exact ((length_digitsOf_le_iff hd).1 le_rfl).trans_le (Nat.pow_le_pow_left le _)

/-- Digits of a radix have as many digits, less the leading zeros. -/
theorem length_digitsOf_valueIn {d : Nat} {s : List Nat} (hd : 2 ≤ d) (below : ∀ x ∈ s, x < d) :
    leadingCount 0 s + (digitsOf d (valueIn d s)).length = s.length := by
  have := leadingCount_le_length 0 s
  rw [digitsOf_valueIn_eq_drop hd below, List.length_drop]
  omega

/-! ## The change of radix that keeps leading zeros (41_encoder.md R141, 42_decoder.md R156) -/

/-- A zero per leading zero, and the digits of the value in the other radix: what ENC and DEC do to digits. -/
def convert (r q : Nat) (s : List Nat) : List Nat :=
  List.replicate (leadingCount 0 s) 0 ++ digitsOf q (valueIn r s)

theorem length_convert (r q : Nat) (s : List Nat) :
    (convert r q s).length = leadingCount 0 s + (digitsOf q (valueIn r s)).length := by
  simp [convert]

theorem lt_of_mem_convert {r q x : Nat} {s : List Nat} (hq : 2 ≤ q) (h : x ∈ convert r q s) : x < q := by
  rcases List.mem_append.1 h with zero | digit
  · have := List.eq_of_mem_replicate zero; omega
  · exact lt_of_mem_digitsOf hq digit

theorem leadingCount_replicate_append {x k : Nat} {s : List Nat} (head : ∀ y ∈ s.head?, y ≠ x) :
    leadingCount x (List.replicate k x ++ s) = k := by
  induction k with
  | zero =>
    cases s with
    | nil => rfl
    | cons y s => exact if_neg (head y rfl)
  | succ k ih => rw [List.replicate_succ, List.cons_append, leadingCount, if_pos rfl, ih]

theorem leadingCount_convert {r q : Nat} (hq : 2 ≤ q) (s : List Nat) :
    leadingCount 0 (convert r q s) = leadingCount 0 s :=
  leadingCount_replicate_append (head_digitsOf_ne_zero hq)

theorem valueIn_convert {r q : Nat} (hq : 2 ≤ q) (s : List Nat) : valueIn q (convert r q s) = valueIn r s := by
  rw [convert, valueIn_replicate_zero_append, valueIn_digitsOf hq]

/-- The change of radix back undoes the change of radix: the leading zeros and the value are kept. -/
theorem convert_convert {r q : Nat} {s : List Nat} (hr : 2 ≤ r) (hq : 2 ≤ q) (below : ∀ x ∈ s, x < r) :
    convert q r (convert r q s) = s := by
  rw [convert, leadingCount_convert hq, valueIn_convert hq, digitsOf_valueIn_eq_drop hr below,
    replicate_leadingCount_append_drop]

/-- A sequence of zeros only stays as it is in any radix. -/
theorem convert_replicate_zero (r q k : Nat) : convert r q (List.replicate k 0) = List.replicate k 0 := by
  have count : leadingCount 0 (List.replicate k 0) = k := by
    simpa using leadingCount_replicate_append (x := 0) (k := k) (s := []) (by simp)
  have value : valueIn r (List.replicate k 0) = 0 := by
    simpa using valueIn_replicate_zero_append r k []
  rw [convert, count, value, digitsOf_zero, List.append_nil]

/-- A larger radix never gives a longer sequence. -/
theorem length_convert_anti {q q' : Nat} (hq : 2 ≤ q) (le : q ≤ q') (r : Nat) (s : List Nat) :
    (convert r q' s).length ≤ (convert r q s).length := by
  simpa only [length_convert, Nat.add_le_add_iff_left] using length_digitsOf_anti hq le (valueIn r s)

/-- In its own radix a sequence keeps its length. -/
theorem length_convert_self {r : Nat} {s : List Nat} (hr : 2 ≤ r) (below : ∀ x ∈ s, x < r) :
    (convert r r s).length = s.length :=
  (length_convert r r s).trans (length_digitsOf_valueIn hr below)

/-- From radix 256 to any radix, a sequence becomes at most 8 times as long: 256 is `2 ^ 8`. -/
theorem length_convert_le_eight_mul {q : Nat} {s : List Nat} (hq : 2 ≤ q) (below : ∀ x ∈ s, x < 256) :
    (convert 256 q s).length ≤ 8 * s.length := by
  have count := length_digitsOf_valueIn (by omega) below
  have lt : valueIn 256 s < 256 ^ (digitsOf 256 (valueIn 256 s)).length :=
    (length_digitsOf_le_iff (by omega)).1 le_rfl
  have digits : (digitsOf q (valueIn 256 s)).length ≤ 8 * (digitsOf 256 (valueIn 256 s)).length := by
    rw [length_digitsOf_le_iff hq, pow_mul]
    exact lt.trans_le (Nat.pow_le_pow_left (Nat.pow_le_pow_left hq 8) _)
  rw [length_convert]
  omega

/-! ## The inverse laws (43_bigint.md section 3) -/

theorem toNat_lt_of_mem {y : List Byte} : ∀ x ∈ y.map BitVec.toNat, x < 256 := by
  intro x hx
  obtain ⟨c, -, rfl⟩ := List.mem_map.1 hx
  exact c.isLt

@[simp] theorem map_ofNat_toNat (y : List Byte) : (y.map BitVec.toNat).map (BitVec.ofNat 8) = y := by
  rw [List.map_map]
  exact List.map_id'' (fun c => by simp) y

theorem fromBase256_eq (y : List Byte) : fromBase256 y = valueIn 256 (y.map BitVec.toNat) := rfl

theorem toBase256_eq (v : Nat) : toBase256 v = (digitsOf 256 v).map (BitVec.ofNat 8) := rfl

theorem fromBase256_toBase256 (v : Nat) : fromBase256 (toBase256 v) = v := by
  have digits : (toBase256 v).map BitVec.toNat = digitsOf 256 v :=
    map_toNat_ofNat fun _ => lt_of_mem_digitsOf (by decide)
  rw [fromBase256_eq, digits, valueIn_digitsOf (by decide)]

theorem fromBase256_replicate_zero_append (k : Nat) (y : List Byte) :
    fromBase256 (List.replicate k 0 ++ y) = fromBase256 y := by
  have zeros : (List.replicate k (0 : Byte)).map BitVec.toNat = List.replicate k 0 := List.map_replicate
  rw [fromBase256_eq, List.map_append, zeros, valueIn_replicate_zero_append, fromBase256_eq]

/-- The bytes of the value of bytes are those bytes without the leading zero bytes. -/
theorem toBase256_fromBase256 (y : List Byte) :
    toBase256 (fromBase256 y) = y.drop (leadingCount 0 (y.map BitVec.toNat)) := by
  rw [toBase256_eq, fromBase256_eq, digitsOf_valueIn_eq_drop (by decide) toNat_lt_of_mem, List.map_drop,
    map_ofNat_toNat]

/-- A value of bytes has at most as many bytes. -/
theorem length_toBase256_fromBase256_le (y : List Byte) : (toBase256 (fromBase256 y)).length ≤ y.length := by
  rw [toBase256_fromBase256, List.length_drop]
  omega

/-- The bytes of the value of bytes, padded to their number, are those bytes: the padding is the leading zero bytes. -/
theorem pad_toBase256_fromBase256 (y : List Byte) :
    List.replicate (y.length - (toBase256 (fromBase256 y)).length) 0 ++ toBase256 (fromBase256 y) = y := by
  have count := leadingCount_le_length 0 (y.map BitVec.toNat)
  rw [List.length_map] at count
  have pad : y.length - (y.drop (leadingCount 0 (y.map BitVec.toNat))).length =
      leadingCount 0 (y.map BitVec.toNat) := by
    rw [List.length_drop]; omega
  have whole := congrArg (List.map (BitVec.ofNat 8)) (replicate_leadingCount_append_drop 0 (y.map BitVec.toNat))
  rw [List.map_append, List.map_replicate, List.map_drop, map_ofNat_toNat] at whole
  rw [toBase256_fromBase256, pad]
  exact whole

/-- Bytes without a leading zero byte are the bytes of their value. -/
theorem toBase256_fromBase256_of_head {y : List Byte} (head : ∀ x ∈ y.head?, x ≠ 0) :
    toBase256 (fromBase256 y) = y := by
  have none_leading : leadingCount 0 (y.map BitVec.toNat) = 0 := by
    refine leadingCount_replicate_append (k := 0) fun x hx => ?_
    rw [List.head?_map] at hx
    obtain ⟨c, hc, rfl⟩ := Option.mem_map.1 hx
    exact fun zero => head c hc (BitVec.eq_of_toNat_eq zero)
  rw [toBase256_fromBase256, none_leading, List.drop_zero]

/-- Settles O25: each law is one of the lemmas above at a radix of 2 or more. -/
theorem conversionsAreInverse : Obligations.ConversionsAreInverse := by
  have two_le {n : Nat} (radix : (2 ≤ n ∧ n ≤ 94) ∨ n = 256) : 2 ≤ n := by omega
  exact ⟨fun n v radix => valueIn_digitsOf (two_le radix) v,
    fun n ds radix below head => digitsOf_valueIn (two_le radix) below head,
    fun k v => (fromBase256_replicate_zero_append k _).trans (fromBase256_toBase256 v),
    pad_toBase256_fromBase256, fun y head => toBase256_fromBase256_of_head head⟩

end Sys2Proof.Proofs
end

section
/-! PROOFS. The alphabet's lookups (40_alphabet.md section 4): DLUT and the symbols undo each other. -/

namespace Sys2Proof.Proofs

open Sys2Proof Sys2Proof.Machine Sys2Proof.Laws

/-! ## Symbols and their places (40_alphabet.md R121, R124, R127) -/

/-- The symbol of a digit stands at the digit's place (40_alphabet.md R127). -/
theorem getElem?_eq_symbol {cfg : Config} (ok : cfg.AlphabetOk) {d : Nat} (lt : d < 94) :
    cfg.alpha[d]? = some (cfg.alpha.getD d 0) := by
  obtain ⟨length, -, -, -⟩ := ok
  have lt_length : d < cfg.alpha.length := length ▸ lt
  rw [List.getD_eq_getElem _ _ lt_length, List.getElem?_eq_getElem lt_length]

/-- DLUT is the inverse table: a code is at one place of the alphabet at most (40_alphabet.md R121 (b), R124). -/
theorem dlut_eq_some_iff_getElem? {cfg : Config} (ok : cfg.AlphabetOk) {c : Byte} {i : Nat} :
    dlut cfg c = some i ↔ cfg.alpha[i]? = some c := by
  obtain ⟨-, nodup, -, -⟩ := ok
  rw [dlut_eq_some]
  constructor
  · rintro ⟨mem, rfl⟩
    exact List.getElem?_idxOf mem
  · intro at_i
    obtain ⟨lt, rfl⟩ := List.getElem?_eq_some_iff.1 at_i
    exact ⟨List.getElem_mem lt, nodup.idxOf_getElem i lt⟩

theorem digitFor_eq_some_iff_dlut {cfg : Config} {c : Byte} {b i : Nat} :
    digitFor cfg c b = some i ↔ dlut cfg c = some i ∧ i < b := by
  rw [digitFor_eq_some, dlut_eq_some, and_assoc]

/-- The place of the symbol of a digit is the digit (40_alphabet.md R124, R127). -/
theorem idxOf_symbol {cfg : Config} (ok : cfg.AlphabetOk) {d : Nat} (lt : d < 94) :
    cfg.alpha.idxOf (cfg.alpha.getD d 0) = d :=
  (dlut_eq_some.1 ((dlut_eq_some_iff_getElem? ok).2 (getElem?_eq_symbol ok lt))).2

/-- The symbol at the place of a code of the alphabet is that code (40_alphabet.md R124, R127). -/
theorem symbol_idxOf {alpha : List Byte} {c : Byte} (mem : c ∈ alpha) : alpha.getD (alpha.idxOf c) 0 = c := by
  rw [List.getD_eq_getElem?_getD, List.getElem?_idxOf mem, Option.getD_some]

/-- The symbol of a digit below the base is a symbol of the base (40_alphabet.md R129). -/
theorem symbol_mem_take {cfg : Config} (ok : cfg.AlphabetOk) {b d : Nat} (hb : b ≤ 94) (lt : d < b) :
    cfg.alpha.getD d 0 ∈ cfg.alpha.take b := by
  have at_d := getElem?_eq_symbol ok (d := d) (by omega)
  exact List.mem_of_getElem? (i := d) (by rw [List.getElem?_take_of_lt lt, at_d])

/-- The place of a symbol of the base is below the base (40_alphabet.md R129). -/
theorem idxOf_lt_of_mem_take {cfg : Config} {b : Nat} {c : Byte} (mem : c ∈ cfg.alpha.take b) : cfg.alpha.idxOf c < b :=
  (digitFor_eq_some.1 (digitFor_of_mem mem)).2.2

/-- Settles O31: each law is one of the above, or `digit_for` read as DLUT with a bound. -/
theorem lookupsAreInverse : Obligations.LookupsAreInverse := by
  intro cfg ok
  refine ⟨fun c i => dlut_eq_some_iff_getElem? ok, fun b d hb lt => ?_, fun b i c digit => ?_,
    fun b i c => digitFor_eq_some_iff_dlut, fun b b' i c le digit => ?_⟩
  · rw [symbolFor, digitFor_of_mem (symbol_mem_take ok hb lt), idxOf_symbol ok (by omega)]
  · obtain ⟨mem, rfl, -⟩ := digitFor_eq_some.1 digit
    exact symbol_idxOf mem
  · obtain ⟨place, lt⟩ := digitFor_eq_some_iff_dlut.1 digit
    exact digitFor_eq_some_iff_dlut.2 ⟨place, by omega⟩

/-- Settles O32: the symbol that SYM leaves in RES is a symbol of every base above the digit. -/
theorem digOfSymRestoresDigit : Obligations.DigOfSymRestoresDigit := by
  intro s t d b ok le_94 two_le lt h
  rw [exec_sym_of_le (by omega)] at h
  cases h
  refine ⟨_, exec_dig_of_mem (legalBase_iff.2 ⟨two_le, le_94⟩) (symbol_mem_take ok le_94 lt), rfl, ?_⟩
  simp only [succeed_res, succeed_cfg, idxOf_symbol ok (show d.toNat < 94 by omega), BitVec.toNat_ofNat]
  omega

end Sys2Proof.Proofs
end

section
/-! PROOFS. Leading zeros, lengths and the round trip (41_encoder.md and 42_decoder.md section 3): the outputs of ENC
and DEC are the change of radix of their digits, so its laws are theirs. -/

namespace Sys2Proof.Proofs

open Sys2Proof Sys2Proof.Machine Sys2Proof.Laws

/-! ## The closed forms as changes of radix -/

/-- The digits that ENC computes are those of the value of the whole input (41_encoder.md R145). -/
theorem encodeDigits_eq (b : Nat) (x : List Byte) :
    encodeDigits b x = digitsOf b (valueIn 256 (x.map BitVec.toNat)) := by
  rw [encodeDigits, fromBase256_eq, List.map_drop]
  exact congrArg (digitsOf b) (valueIn_drop_leadingCount 256 _)

/-- ENC writes the symbols of its input in the other radix (41_encoder.md R141). -/
theorem encoded_eq_convert {b : Nat} (hb : 2 ≤ b) (alpha x : List Byte) :
    encoded alpha b x = (convert 256 b (x.map BitVec.toNat)).map (alpha.getD · 0) := by
  rw [encoded_eq hb, encodeDigits_eq, convert, List.map_append, List.map_replicate]

/-- DEC writes the bytes of its digits in radix 256 (42_decoder.md R156). -/
theorem decoded_eq_convert (alpha : List Byte) (b : Nat) (y : List Byte) :
    decoded alpha b y = (convert b 256 (y.map alpha.idxOf)).map (BitVec.ofNat 8) := by
  rw [decoded_eq, toBase256_eq, convert, List.map_append, List.map_replicate]
  rfl

/-- The digits of the string that ENC writes. -/
theorem idxOf_encoded {cfg : Config} (ok : cfg.AlphabetOk) {b : Nat} (two_le : 2 ≤ b) (le_94 : b ≤ 94) (x : List Byte) :
    (encoded cfg.alpha b x).map cfg.alpha.idxOf = convert 256 b (x.map BitVec.toNat) := by
  rw [encoded_eq_convert two_le, List.map_map]
  conv_rhs => rw [← List.map_id (convert _ _ _)]
  exact List.map_congr_left fun d hd => idxOf_symbol ok ((lt_of_mem_convert two_le hd).trans_le le_94)

/-- The values of the bytes that DEC writes. -/
theorem toNat_decoded (alpha : List Byte) (b : Nat) (y : List Byte) :
    (decoded alpha b y).map BitVec.toNat = convert b 256 (y.map alpha.idxOf) := by
  rw [decoded_eq_convert]
  exact map_toNat_ofNat fun _ => lt_of_mem_convert (by decide)

theorem length_encoded {b : Nat} (hb : 2 ≤ b) (alpha x : List Byte) :
    (encoded alpha b x).length = (convert 256 b (x.map BitVec.toNat)).length := by
  rw [encoded_eq_convert hb, List.length_map]

theorem length_decoded (alpha : List Byte) (b : Nat) (y : List Byte) :
    (decoded alpha b y).length = (convert b 256 (y.map alpha.idxOf)).length := by
  rw [decoded_eq_convert, List.length_map]

/-- ENC writes symbols of the base only (41_encoder.md R147 (a)). -/
theorem mem_take_of_mem_encoded {cfg : Config} (ok : cfg.AlphabetOk) {b : Nat} (two_le : 2 ≤ b) (le_94 : b ≤ 94)
    {x : List Byte} {c : Byte} (mem : c ∈ encoded cfg.alpha b x) : c ∈ cfg.alpha.take b := by
  rw [encoded_eq_convert two_le] at mem
  obtain ⟨d, hd, rfl⟩ := List.mem_map.1 mem
  exact symbol_mem_take ok le_94 (lt_of_mem_convert two_le hd)

theorem idxOf_lt_of_symbols {cfg : Config} {b : Nat} {y : List Byte} (symbols : ∀ c ∈ y, c ∈ cfg.alpha.take b) :
    ∀ d ∈ y.map cfg.alpha.idxOf, d < b := by
  intro d hd
  obtain ⟨c, hc, rfl⟩ := List.mem_map.1 hd
  exact idxOf_lt_of_mem_take (symbols c hc)

/-- The round trip on sequences (42_decoder.md R163). -/
theorem decoded_encoded {cfg : Config} (ok : cfg.AlphabetOk) {b : Nat} (two_le : 2 ≤ b) (le_94 : b ≤ 94)
    (x : List Byte) : decoded cfg.alpha b (encoded cfg.alpha b x) = x := by
  rw [decoded_eq_convert, idxOf_encoded ok two_le le_94, convert_convert (by decide) two_le toNat_lt_of_mem,
    map_ofNat_toNat]

/-- The converse of the round trip on sequences (42_decoder.md R163). -/
theorem encoded_decoded {cfg : Config} {b : Nat} (two_le : 2 ≤ b) {y : List Byte}
    (symbols : ∀ c ∈ y, c ∈ cfg.alpha.take b) : encoded cfg.alpha b (decoded cfg.alpha b y) = y := by
  rw [encoded_eq_convert two_le, toNat_decoded, convert_convert two_le (by decide) (idxOf_lt_of_symbols symbols),
    List.map_map]
  conv_rhs => rw [← List.map_id y]
  exact List.map_congr_left fun c hc => symbol_idxOf (List.mem_of_mem_take (symbols c hc))

/-- ENC never gives fewer symbols than it had bytes: a base is at most 256 (41_encoder.md R146). -/
theorem length_le_length_encoded {b : Nat} (two_le : 2 ≤ b) (le_94 : b ≤ 94) (alpha x : List Byte) :
    x.length ≤ (encoded alpha b x).length := by
  have same := length_convert_self (r := 256) (by decide) (toNat_lt_of_mem (y := x))
  rw [List.length_map] at same
  rw [length_encoded two_le]
  exact same.symm.trans_le (length_convert_anti two_le (by omega) 256 _)

theorem length_encoded_le_eight_mul {b : Nat} (two_le : 2 ≤ b) (alpha x : List Byte) :
    (encoded alpha b x).length ≤ 8 * x.length := by
  have bound := length_convert_le_eight_mul two_le (toNat_lt_of_mem (y := x))
  rwa [List.length_map, ← length_encoded two_le alpha] at bound

/-- DEC never gives more bytes than it had characters (42_decoder.md R162). -/
theorem length_decoded_le {cfg : Config} {b : Nat} (two_le : 2 ≤ b) (le_94 : b ≤ 94) {y : List Byte}
    (symbols : ∀ c ∈ y, c ∈ cfg.alpha.take b) : (decoded cfg.alpha b y).length ≤ y.length := by
  have same := length_convert_self two_le (idxOf_lt_of_symbols symbols)
  rw [List.length_map] at same
  rw [length_decoded]
  exact (length_convert_anti two_le (by omega) b _).trans_eq same

/-! ## What ENC and DEC of a legal base leave -/

/-- The state after a conversion that stored the output `out`: ACC is left 0 (10_state.md R33, 43_bigint.md R175). -/
def stored (s : State) (out : List Byte) : State := ({ s with acc := 0 }.setOutput out out.length).succeed

@[simp] theorem stored_cfg (s : State) (out : List Byte) : (stored s out).cfg = s.cfg := rfl
@[simp] theorem stored_err (s : State) (out : List Byte) : (stored s out).err = .ok := rfl
@[simp] theorem stored_obuf (s : State) (out : List Byte) : (stored s out).obuf = cellsFrom 0 out := rfl
@[simp] theorem stored_olen (s : State) (out : List Byte) : (stored s out).olen = BitVec.ofNat 32 out.length := rfl

theorem toNat_stored_olen {s : State} {out : List Byte} (fits : out.length ≤ s.cfg.outputLimit) :
    (stored s out).olen.toNat = out.length :=
  toNat_ofNat_of_le_limit fits

/-- The output that was stored is read back. -/
theorem output_stored {s : State} {out : List Byte} (fits : out.length ≤ s.cfg.outputLimit) :
    (stored s out).output = out.map some :=
  output_cellsFrom rfl (toNat_stored_olen fits)

/-- The output that was stored, moved to IBUF, is the input (30_encoding.md R102). -/
theorem input_of_stored {s : State} {out : List Byte} (fits : out.length ≤ s.cfg.outputLimit) :
    State.input { stored s out with ibuf := (stored s out).obuf, ilen := (stored s out).olen } = out :=
  input_cellsFrom rfl (toNat_stored_olen fits)

/-- An output is stored exactly when it fits, in whatever way it is cut into padding and body (20_memory.md R68). -/
theorem emit_eq_next_iff {z : Nat} {pad : Byte} {body out : List Byte} {s t : State}
    (out_eq : List.replicate z pad ++ body = out) :
    emit z pad body { s with acc := 0 } = .next t ↔ out.length ≤ s.cfg.outputLimit ∧ t = stored s out := by
  have length_eq : out.length = z + body.length := by simp [← out_eq]
  rw [emit_eq_next, stored, length_eq, out_eq]

theorem exec_enc_eq_next {s t : State} {b : BitVec 16} (legal : legalBase b = true) :
    exec (.enc b) s = .next t ↔ (encoded s.cfg.alpha b.toNat s.input).length ≤ s.cfg.outputLimit ∧
      t = stored s (encoded s.cfg.alpha b.toNat s.input) := by
  simp only [exec, execEnc, legal, if_true]
  exact emit_eq_next_iff (encoded_eq (legalBase_iff.1 legal).1 s.input).symm

theorem exec_dec_eq_next {s t : State} {b : BitVec 16} (legal : legalBase b = true)
    (symbols : ∀ c ∈ s.input, c ∈ s.cfg.alpha.take b.toNat) :
    exec (.dec b) s = .next t ↔ (decoded s.cfg.alpha b.toNat s.input).length ≤ s.cfg.outputLimit ∧
      t = stored s (decoded s.cfg.alpha b.toNat s.input) := by
  simp only [exec, execDec, legal, if_true, scan_symbols symbols]
  exact emit_eq_next_iff (decoded_eq s.cfg.alpha b.toNat s.input).symm

/-- DEC completes with code 0 on strings of symbols of the base only (42_decoder.md R158). -/
theorem symbols_of_exec_dec {s t : State} {b : BitVec 16} (legal : legalBase b = true)
    (h : exec (.dec b) s = .next t) (ok : t.err = .ok) : ∀ c ∈ s.input, c ∈ s.cfg.alpha.take b.toNat := by
  simp only [exec, execDec, legal, if_true] at h
  split at h
  · cases h; simp [Raised.code] at ok
  · next ds accepted =>
    intro c hc
    obtain ⟨d, -, digit⟩ := List.mem_map.1 (scan_eq_ok.1 accepted ▸ List.mem_map_of_mem hc)
    exact digitFor_isSome.1 (Option.isSome_iff_exists.2 ⟨d, digit.symm⟩)

@[simp] theorem length_input (s : State) : s.input.length = s.ilen.toNat := by simp [State.input]

/-! ## The round trip (42_decoder.md R163) -/

/-- DEC of what ENC writes for `x` gives `x` back, when `x` fits. -/
theorem exec_dec_of_encoded {s : State} {b : BitVec 16} {x : List Byte} (ok : s.cfg.AlphabetOk)
    (legal : legalBase b = true) (input : s.input = encoded s.cfg.alpha b.toNat x)
    (fits : x.length ≤ s.cfg.outputLimit) :
    ∃ u, exec (.dec b) s = .next u ∧ u.err = .ok ∧ u.output = x.map some := by
  obtain ⟨two_le, le_94⟩ := legalBase_iff.1 legal
  have symbols : ∀ c ∈ s.input, c ∈ s.cfg.alpha.take b.toNat := fun c hc =>
    mem_take_of_mem_encoded ok two_le le_94 (input ▸ hc)
  have decoded_input : decoded s.cfg.alpha b.toNat s.input = x := by rw [input, decoded_encoded ok two_le le_94]
  refine ⟨_, (exec_dec_eq_next legal symbols).2 ⟨decoded_input.symm ▸ fits, rfl⟩, rfl, ?_⟩
  rw [decoded_input]
  exact output_stored fits

/-- ENC of what DEC writes for a string of symbols `y` gives `y` back, when `y` fits. -/
theorem exec_enc_of_decoded {s : State} {b : BitVec 16} {y : List Byte} (legal : legalBase b = true)
    (symbols : ∀ c ∈ y, c ∈ s.cfg.alpha.take b.toNat) (input : s.input = decoded s.cfg.alpha b.toNat y)
    (fits : y.length ≤ s.cfg.outputLimit) :
    ∃ u, exec (.enc b) s = .next u ∧ u.err = .ok ∧ u.output = y.map some := by
  have encoded_input : encoded s.cfg.alpha b.toNat s.input = y := by
    rw [input, encoded_decoded (legalBase_iff.1 legal).1 symbols]
  refine ⟨_, (exec_enc_eq_next legal).2 ⟨encoded_input.symm ▸ fits, rfl⟩, rfl, ?_⟩
  rw [encoded_input]
  exact output_stored fits

/-- Settles O18: ENC stored its closed form, which moved to IBUF is the input of DEC; the original fits because ENC
never shortens. -/
theorem decOfEncRestoresInput : Obligations.DecOfEncRestoresInput := by
  intro s t b ok two_le le_94 h
  have legal := legalBase_iff.2 ⟨two_le, le_94⟩
  obtain ⟨fits, rfl⟩ := (exec_enc_eq_next legal).1 h
  exact exec_dec_of_encoded ok legal (input_of_stored fits)
    ((length_le_length_encoded two_le le_94 s.cfg.alpha s.input).trans fits)

/-- Settles O19: DEC accepted a string of symbols and stored its closed form, which moved to IBUF is the input
of ENC. -/
theorem encOfDecRestoresString : Obligations.EncOfDecRestoresString := by
  intro s t b ok fits two_le le_94 h success
  have legal := legalBase_iff.2 ⟨two_le, le_94⟩
  have symbols := symbols_of_exec_dec legal h success
  obtain ⟨out_fits, rfl⟩ := (exec_dec_eq_next legal symbols).1 h
  exact exec_enc_of_decoded legal symbols (input_of_stored out_fits) ((length_input s).trans_le fits)

/-! ## Zeros and lengths (41_encoder.md R145 to R147, 42_decoder.md R160, R162) -/

theorem input_eq_replicate {s : State} {x : Byte} (all : ∀ y ∈ s.input, y = x) :
    s.input = List.replicate s.ilen.toNat x :=
  List.eq_replicate_iff.2 ⟨length_input s, all⟩

/-- A stored output as long as the input, all of one element. -/
theorem stored_replicate {s : State} {x : Byte} (fits : (List.replicate s.ilen.toNat x).length ≤ s.cfg.outputLimit) :
    (stored s (List.replicate s.ilen.toNat x)).olen = s.ilen ∧
      (stored s (List.replicate s.ilen.toNat x)).output = List.replicate s.ilen.toNat (some x) :=
  ⟨by simp, (output_stored fits).trans List.map_replicate⟩

/-- Settles O20: the digits of such an input are zeros, and zeros stay as they are in any radix. -/
theorem onlyZerosConvertOneForOne : Obligations.OnlyZerosConvertOneForOne := by
  refine ⟨fun s t b two_le le_94 zeros h => ?_, fun s t b ok two_le le_94 zeros h => ?_⟩
  · have out : encoded s.cfg.alpha b.toNat s.input = List.replicate s.ilen.toNat (s.cfg.alpha.getD 0 0) := by
      rw [encoded_eq_convert two_le, input_eq_replicate zeros, List.map_replicate]
      exact (congrArg _ (convert_replicate_zero 256 b.toNat _)).trans List.map_replicate
    rw [exec_enc_eq_next (legalBase_iff.2 ⟨two_le, le_94⟩), out] at h
    obtain ⟨fits, rfl⟩ := h
    exact stored_replicate fits
  · have symbols : ∀ c ∈ s.input, c ∈ s.cfg.alpha.take b.toNat := fun c hc =>
      zeros c hc ▸ symbol_mem_take ok le_94 (by omega)
    have out : decoded s.cfg.alpha b.toNat s.input = List.replicate s.ilen.toNat 0 := by
      rw [decoded_eq_convert, input_eq_replicate zeros, List.map_replicate, idxOf_symbol ok (by decide),
        convert_replicate_zero]
      exact List.map_replicate
    rw [exec_dec_eq_next (legalBase_iff.2 ⟨two_le, le_94⟩) symbols, out] at h
    obtain ⟨fits, rfl⟩ := h
    exact ⟨rfl, stored_replicate fits⟩

/-- The element right after the leading zeros of a change of radix, if any, is not 0. -/
theorem getElem?_convert_ne_zero {q : Nat} (hq : 2 ≤ q) (r : Nat) (s : List Nat) :
    (convert r q s)[leadingCount 0 s]? ≠ some 0 := by
  have first_digit : (convert r q s)[leadingCount 0 s]? = (digitsOf q (valueIn r s)).head? := by
    rw [convert, List.getElem?_append_right (by simp), List.length_replicate, Nat.sub_self, List.head?_eq_getElem?]
  rw [first_digit]
  exact fun zero => head_digitsOf_ne_zero hq 0 zero rfl

/-- The symbol after the leading zero symbols is not the zero symbol (41_encoder.md R146). -/
theorem getElem?_encoded_ne_zero_symbol {cfg : Config} (ok : cfg.AlphabetOk) {b : Nat} (two_le : 2 ≤ b) (le_94 : b ≤ 94)
    (x : List Byte) : (encoded cfg.alpha b x)[leading 0 x]? ≠ some (cfg.alpha.getD 0 0) := by
  intro zero_symbol
  have zero := congrArg (Option.map cfg.alpha.idxOf) zero_symbol
  rw [← List.getElem?_map, idxOf_encoded ok two_le le_94, leading_zero_eq, Option.map_some,
    idxOf_symbol ok (by decide)] at zero
  exact getElem?_convert_ne_zero two_le _ _ zero

/-- The leading zero symbols are the leading zero digits (42_decoder.md R160). -/
theorem leading_zero_symbol_eq {cfg : Config} (ok : cfg.AlphabetOk) (y : List Byte) :
    leading (cfg.alpha.getD 0 0) y = leadingCount 0 (y.map cfg.alpha.idxOf) := by
  obtain ⟨length, -, -, -⟩ := ok
  have pos : 0 < cfg.alpha.length := by rw [length]; decide
  have nonempty : cfg.alpha ≠ [] := List.ne_nil_of_length_pos pos
  have same : (fun c => c == cfg.alpha.getD 0 0) = fun c => cfg.alpha.idxOf c == 0 := by
    funext c
    rw [Bool.eq_iff_iff, beq_iff_eq, beq_iff_eq, List.idxOf_eq_zero_iff_head_eq nonempty, ← List.getElem_zero_eq_head,
      List.getD_eq_getElem _ _ pos, eq_comm]
  rw [leading, same, takeWhile_zero_length]

/-- The byte after the leading zero bytes is not zero (42_decoder.md R162). -/
theorem getElem?_decoded_ne_zero {cfg : Config} (ok : cfg.AlphabetOk) (b : Nat) (y : List Byte) :
    (decoded cfg.alpha b y)[leading (cfg.alpha.getD 0 0) y]? ≠ some 0 := by
  intro zero_byte
  have zero := congrArg (Option.map BitVec.toNat) zero_byte
  rw [← List.getElem?_map, toNat_decoded, leading_zero_symbol_eq ok] at zero
  exact getElem?_convert_ne_zero (by decide) _ _ zero

/-- A number other than 0 is between two powers of the radix that its number of digits gives. -/
theorem pow_le_lt_pow_length_digitsOf {d v : Nat} (hd : 2 ≤ d) (nonzero : v ≠ 0) :
    0 < (digitsOf d v).length ∧ d ^ ((digitsOf d v).length - 1) ≤ v ∧ v < d ^ (digitsOf d v).length := by
  have pos : ¬ (digitsOf d v).length ≤ 0 := by rw [length_digitsOf_le_iff hd, pow_zero]; omega
  have lower : ¬ (digitsOf d v).length ≤ (digitsOf d v).length - 1 := by omega
  rw [length_digitsOf_le_iff hd] at lower
  exact ⟨by omega, not_lt.1 lower, (length_digitsOf_le_iff hd).1 le_rfl⟩

/-- Settles O21: D is the number of digits of the value of the input. -/
theorem encOutputLength : Obligations.EncOutputLength := by
  intro s t b ok two_le le_94 h
  obtain ⟨fits, rfl⟩ := (exec_enc_eq_next (legalBase_iff.2 ⟨two_le, le_94⟩)).1 h
  rw [toNat_stored_olen fits, stored_obuf, read_cellsFrom_zero, positional_eq_valueIn, ← length_input]
  refine ⟨(digitsOf b.toNat (valueIn 256 (s.input.map BitVec.toNat))).length, ?_, fun zero => ?_,
    pow_le_lt_pow_length_digitsOf two_le, length_le_length_encoded two_le le_94 _ _,
    length_encoded_le_eight_mul two_le _ _, fun _ => getElem?_encoded_ne_zero_symbol ok two_le le_94 _⟩
  · rw [length_encoded two_le, length_convert, leading_zero_eq]
  · rw [zero, digitsOf_zero, List.length_nil]

/-- Settles O22: DEC accepted a string of symbols, and the rest is about its closed form. -/
theorem decOutputNoLongerThanInput : Obligations.DecOutputNoLongerThanInput := by
  intro s t b ok two_le le_94 h success
  have legal := legalBase_iff.2 ⟨two_le, le_94⟩
  have symbols := symbols_of_exec_dec legal h success
  obtain ⟨fits, rfl⟩ := (exec_dec_eq_next legal symbols).1 h
  rw [toNat_stored_olen fits, stored_obuf, read_cellsFrom_zero, ← length_input]
  exact ⟨length_decoded_le two_le le_94 symbols, fun _ => getElem?_decoded_ne_zero ok _ _⟩

/-- Settles O23: every cell of OBUF holds an element of the closed form. -/
theorem encWritesOnlySymbolsOfTheBase : Obligations.EncWritesOnlySymbolsOfTheBase := by
  intro s t b k c ok two_le le_94 h read
  obtain ⟨-, rfl⟩ := (exec_enc_eq_next (legalBase_iff.2 ⟨two_le, le_94⟩)).1 h
  rw [stored_obuf, read_cellsFrom_zero] at read
  exact mem_take_of_mem_encoded ok two_le le_94 (List.mem_of_getElem? read)

/-- Settles O24: both outputs are changes of radix of one input. -/
theorem smallerBaseNeverShorter : Obligations.SmallerBaseNeverShorter := by
  intro s t u b c two_le le le_94 ht hu
  obtain ⟨fits_b, rfl⟩ := (exec_enc_eq_next (legalBase_iff.2 ⟨two_le, by omega⟩)).1 ht
  obtain ⟨fits_c, rfl⟩ := (exec_enc_eq_next (legalBase_iff.2 ⟨by omega, le_94⟩)).1 hu
  rw [toNat_stored_olen fits_b, toNat_stored_olen fits_c, length_encoded two_le, length_encoded (by omega)]
  exact length_convert_anti two_le le 256 _

/-! ## Loading and storing (43_bigint.md section 3) -/

/-- Settles O26: STB pads the bytes of the value of the input to the input's length. -/
theorem stbAfterLdbRestoresInput : Obligations.StbAfterLdbRestoresInput := by
  intro s t m length limit h
  cases h
  have short := length_toBase256_fromBase256_le s.input
  have restored := pad_toBase256_fromBase256 s.input
  rw [length_input, length] at short restored
  have fits : s.input.length ≤ s.cfg.outputLimit := by rwa [length_input, length]
  exact ⟨_, (emit_eq_next_iff restored).2 ⟨fits, rfl⟩, rfl, output_stored fits⟩

/-- LDD completes with code 0 only with a legal base and digits below it (43_bigint.md R176). -/
theorem digits_of_exec_ldd {s t : State} {n : BitVec 16} (h : exec (.ldd n) s = .next t) (ok : t.err = .ok) :
    legalBase n = true ∧ ∀ d ∈ s.input, d.toNat < n.toNat := by
  simp only [exec, execLdd] at h
  split at h
  · next legal =>
    refine ⟨legal, fun d hd => ?_⟩
    split at h
    · cases h; simp [Raised.code] at ok
    · next ds accepted =>
      obtain ⟨v, -, digit⟩ := List.mem_map.1 (scan_eq_ok.1 accepted ▸ List.mem_map_of_mem hd)
      by_contra not_below
      simp [digitBelow_eq_none_iff.2 (not_lt.1 not_below)] at digit
  · cases h; simp [Raised.code] at ok

/-- Settles O27: STD writes the digits of the value of digits without a leading zero. -/
theorem stdAfterLddRestoresDigits : Obligations.StdAfterLddRestoresDigits := by
  intro s t n limit head h success
  obtain ⟨legal, below⟩ := digits_of_exec_ldd h success
  rw [exec_ldd_of_digits legal below] at h
  cases h
  have restored : digitsOf n.toNat (positional n.toNat (s.input.map BitVec.toNat)) = s.input.map BitVec.toNat := by
    rw [positional_eq_valueIn]
    refine digitsOf_valueIn (legalBase_iff.1 legal).1 (by simpa using below) fun x hx => ?_
    rw [List.head?_map] at hx
    obtain ⟨d, hd, rfl⟩ := Option.mem_map.1 hx
    exact fun zero => head d hd (BitVec.eq_of_toNat_eq zero)
  have fits : s.input.length ≤ s.cfg.outputLimit := by rwa [length_input]
  simp only [exec, execStd, legal, if_true, succeed_acc, restored, map_ofNat_toNat]
  exact ⟨_, (emit_eq_next_iff rfl).2 ⟨fits, rfl⟩, rfl, output_stored fits⟩

end Sys2Proof.Proofs
end

section
/-! PROOFS. The datapath at limb level (43_bigint.md section 6): a normal limb vector is the digits of its value in the
radix of the limbs, so MULADD and DIVMOD on limbs are arithmetic on the value. -/

namespace Sys2Proof.Proofs

open Sys2Proof Sys2Proof.Machine Sys2Proof.Laws

/-- The value of a limb vector is the library's value in the radix of the limbs (10_state.md R22). -/
theorem limbValue_eq_ofDigits (width : Nat) (l : List Nat) : limbValue width l = Nat.ofDigits (2 ^ width) l := by
  induction l with
  | nil => rfl
  | cons x l ih => rw [limbValue, ih, Nat.ofDigits_cons]

theorem limbNormal_iff {width : Nat} {l : List Nat} :
    limbNormal width l = true ↔ (∀ x ∈ l, x < 2 ^ width) ∧ l.getLast? ≠ some 0 := by
  simp [limbNormal]

theorem two_le_two_pow {width : Nat} (hw : 1 ≤ width) : 2 ≤ 2 ^ width := by
  simpa using Nat.pow_le_pow_right (by decide : 0 < 2) hw

/-- A vector is normal exactly when it is the digits of its value in the radix of the limbs (10_state.md R22). -/
theorem limbNormal_iff_digits {width : Nat} (hw : 1 ≤ width) {l : List Nat} :
    limbNormal width l = true ↔ Nat.digits (2 ^ width) (limbValue width l) = l := by
  rw [limbNormal_iff, limbValue_eq_ofDigits]
  constructor
  · rintro ⟨fits, top⟩
    exact Nat.digits_ofDigits _ (two_le_two_pow hw) l fits fun nonempty zero =>
      top (zero ▸ List.getLast?_eq_getLast_of_ne_nil nonempty)
  · intro digits
    rw [← digits]
    refine ⟨fun x => Nat.digits_lt_base (two_le_two_pow hw), fun zero => ?_⟩
    obtain ⟨nonempty, top⟩ := List.mem_getLast?_eq_getLast zero
    exact Nat.getLast_digit_ne_zero _ (Nat.digits_ne_nil_iff_ne_zero.1 nonempty) top.symm

/-- The digits of a number are a normal vector of that value. -/
theorem limb_digits {width : Nat} (hw : 1 ≤ width) (v : Nat) :
    limbValue width (Nat.digits (2 ^ width) v) = v ∧ limbNormal width (Nat.digits (2 ^ width) v) = true := by
  have value : limbValue width (Nat.digits (2 ^ width) v) = v := by rw [limbValue_eq_ofDigits, Nat.ofDigits_digits]
  exact ⟨value, (limbNormal_iff_digits hw).2 (by rw [value])⟩

/-- The rest of a normal vector is normal, and the vector's value is not 0. -/
theorem limbNormal_cons {width x : Nat} {l : List Nat} (hw : 1 ≤ width) (normal : limbNormal width (x :: l) = true) :
    limbNormal width l = true ∧ limbValue width (x :: l) ≠ 0 := by
  constructor
  · obtain ⟨fits, top⟩ := limbNormal_iff.1 normal
    refine limbNormal_iff.2 ⟨fun y hy => fits y (List.mem_cons_of_mem x hy), fun zero => top ?_⟩
    rw [List.getLast?_cons, zero, Option.getD_some]
  · intro zero
    have digits := (limbNormal_iff_digits hw).1 normal
    rw [zero, Nat.digits_zero] at digits
    cases digits

/-! ## Multiply and add (43_bigint.md R179) -/

/-- The loop gives the digits of the value times `m` plus the carry. -/
theorem muladdFrom_eq_digits {width m : Nat} (hw : 1 ≤ width) (hm : 1 ≤ m) {l : List Nat} (carry : Nat)
    (normal : limbNormal width l = true) :
    muladdFrom width m carry l = Nat.digits (2 ^ width) (limbValue width l * m + carry) := by
  induction l generalizing carry with
  | nil => rw [muladdFrom, remainders_eq_digits (two_le_two_pow hw) _ _ le_rfl, limbValue, Nat.zero_mul, Nat.zero_add]
  | cons x l ih =>
    obtain ⟨rest, nonzero⟩ := limbNormal_cons hw normal
    have pos : 0 < limbValue width (x :: l) * m + carry :=
      Nat.add_pos_left (Nat.mul_pos (Nat.pos_of_ne_zero nonzero) hm) carry
    have radix_pos : 0 < 2 ^ width := Nat.two_pow_pos width
    have split : limbValue width (x :: l) * m + carry = x * m + carry + 2 ^ width * (limbValue width l * m) := by
      rw [limbValue]; ring
    rw [Nat.digits_def' (two_le_two_pow hw) pos, split, Nat.add_mul_mod_self_left, Nat.add_mul_div_left _ _ radix_pos,
      muladdFrom, ih _ rest, Nat.add_comm (limbValue width l * m)]

/-- From width 8 on, a byte carried in comes out as at most one limb more (43_bigint.md R181). -/
theorem length_muladdFrom_le {width m carry : Nat} (hw : 8 ≤ width) (hm : m ≤ 256) {l : List Nat}
    (fits : ∀ x ∈ l, x < 2 ^ width) (byte : carry ≤ 255) : (muladdFrom width m carry l).length ≤ l.length + 1 := by
  have radix : 2 ^ 8 ≤ 2 ^ width := Nat.pow_le_pow_right (by decide) hw
  induction l generalizing carry with
  | nil =>
    have one_limb : carry < (2 ^ width) ^ 1 := by rw [pow_one]; omega
    rw [muladdFrom, remainders_eq_digits (by omega) _ _ le_rfl]
    exact (Nat.digits_length_le_iff (by omega) carry).2 one_limb
  | cons x l ih =>
    have limb := fits x List.mem_cons_self
    have carry_out : (x * m + carry) / 2 ^ width ≤ 255 := by
      have product : x * m ≤ x * 256 := Nat.mul_le_mul_left x hm
      exact Nat.lt_succ_iff.1 (Nat.div_lt_of_lt_mul (by omega))
    rw [muladdFrom, List.length_cons, List.length_cons]
    exact Nat.succ_le_succ (ih (fun y hy => fits y (List.mem_cons_of_mem x hy)) carry_out)

/-- Settles O28: the limbs are the digits of the new value, which are normal. -/
theorem limbMuladdRefinesMuladd : Obligations.LimbMuladdRefinesMuladd := by
  intro width m a l hw two_le le_256 byte normal
  rw [muladdLimbs, muladdFrom_eq_digits hw (by omega) a normal]
  obtain ⟨value, new_normal⟩ := limb_digits hw (limbValue width l * m + a)
  refine ⟨value, new_normal, fun wide => ?_⟩
  rw [← muladdFrom_eq_digits hw (by omega) a normal]
  exact length_muladdFrom_le wide le_256 (limbNormal_iff.1 normal).1 byte

/-! ## Divide (43_bigint.md R180) -/

/-- The loop divides with remainder, and each quotient limb fits. -/
theorem divmodFrom_spec {width d : Nat} (hd : 2 ≤ d) {l : List Nat} (fits : ∀ x ∈ l, x < 2 ^ width) :
    limbValue width (divmodFrom width d l).1 * d + (divmodFrom width d l).2 = limbValue width l ∧
      (divmodFrom width d l).2 < d ∧ ∀ q ∈ (divmodFrom width d l).1, q < 2 ^ width := by
  induction l with
  | nil => exact ⟨by simp [divmodFrom, limbValue], by rw [divmodFrom]; omega, nofun⟩
  | cons x l ih =>
    obtain ⟨value, remainder, quotients⟩ := ih fun y hy => fits y (List.mem_cons_of_mem x hy)
    have limb := fits x List.mem_cons_self
    simp only [divmodFrom, limbValue]
    generalize divmodFrom width d l = below at *
    have division := Nat.div_add_mod (below.2 * 2 ^ width + x) d
    refine ⟨?_, Nat.mod_lt _ (by omega), ?_⟩
    · rw [← value]
      linear_combination division
    · rintro q hq
      rcases List.mem_cons.1 hq with rfl | below_q
      · have step : (below.2 + 1) * 2 ^ width ≤ d * 2 ^ width := Nat.mul_le_mul_right _ remainder
        rw [Nat.add_mul, Nat.one_mul] at step
        exact Nat.div_lt_of_lt_mul (by omega)
      · exact quotients q below_q

theorem trimTop_cons (x : Nat) (l : List Nat) :
    trimTop (x :: l) = if trimTop l = [] ∧ x = 0 then [] else x :: trimTop l := by
  rw [trimTop]
  cases trimTop l with
  | nil => by_cases zero : x = 0 <;> simp [zero]
  | cons y ys => simp

/-- Renormalising keeps the value and the bound on the limbs, and leaves no zero limb at the top (43_bigint.md R180). -/
theorem trimTop_spec {width : Nat} {l : List Nat} (fits : ∀ x ∈ l, x < 2 ^ width) :
    limbValue width (trimTop l) = limbValue width l ∧ limbNormal width (trimTop l) = true := by
  induction l with
  | nil => exact ⟨rfl, rfl⟩
  | cons x l ih =>
    obtain ⟨value, normal⟩ := ih fun y hy => fits y (List.mem_cons_of_mem x hy)
    rw [trimTop_cons, limbValue, ← value]
    split
    · next zero => simp [zero, limbValue, limbNormal]
    · next nonzero =>
      obtain ⟨rest_fits, top⟩ := limbNormal_iff.1 normal
      refine ⟨rfl, limbNormal_iff.2 ⟨fun y hy => ?_, ?_⟩⟩
      · rcases List.mem_cons.1 hy with rfl | rest
        · exact fits y List.mem_cons_self
        · exact rest_fits y rest
      · rw [List.getLast?_cons]
        cases rest : (trimTop l).getLast? with
        | none => simpa [List.getLast?_eq_none_iff.1 rest] using nonzero
        | some y => simpa [rest] using top

/-- Settles O29: the loop's quotient and remainder are unique, and renormalising keeps the quotient's value. -/
theorem limbDivmodRefinesDivmod : Obligations.LimbDivmodRefinesDivmod := by
  intro width d l hw two_le le_256 normal
  obtain ⟨division, remainder, quotients⟩ := divmodFrom_spec two_le (limbNormal_iff.1 normal).1
  obtain ⟨value, trimmed⟩ := trimTop_spec quotients
  obtain ⟨quotient_eq, remainder_eq⟩ := (Nat.div_mod_unique (by omega : 0 < d)).2
    ⟨show (divmodFrom width d l).2 + d * limbValue width (divmodFrom width d l).1 = limbValue width l by
      rw [← division]; ring, remainder⟩
  exact ⟨value.trans quotient_eq.symm, remainder_eq.symm, trimmed⟩

end Sys2Proof.Proofs
end

section
/-! PROOFS. Running a command (44_control.md section 1): when it stops (20_memory.md R68), what it reads (00_scope.md
section 5), what its completion sets (R212), and that an accepted command completes (R284). -/

namespace Sys2Proof.Proofs

open Sys2Proof Sys2Proof.Machine Sys2Proof.Laws

/-! ## When a command stops (20_memory.md R68, 93_implementation_defined.md U4) -/

/-- A command whose output fits answers a next state, any other is refused for its output. -/
def StopsOnlyForOutput (i : Instr) (s : State) : Prop :=
  (OutputFits i s → ∃ t, exec i s = .next t) ∧ (¬ OutputFits i s → exec i s = .refused .outputTooLong)

/-- A command without output that answers a next state. -/
theorem stopsOnlyForOutput_of_next {i : Instr} {s : State} (no_output : outputLength i s = 0)
    (next : ∃ t, exec i s = .next t) : StopsOnlyForOutput i s :=
  ⟨fun _ => next, fun misfit => absurd (no_output.trans_le (Nat.zero_le _)) misfit⟩

/-- A command that writes exactly its output. -/
theorem stopsOnlyForOutput_of_emit {i : Instr} {s : State} {z : Nat} {pad : Byte} {body : List Byte}
    (length_eq : outputLength i s = z + body.length) (run : exec i s = emit z pad body { s with acc := 0 }) :
    StopsOnlyForOutput i s := by
  rw [StopsOnlyForOutput, OutputFits, length_eq, run]
  exact ⟨fun fits => ⟨_, emit_of_le fits⟩, fun misfit => emit_of_gt (not_le.1 misfit)⟩

theorem stopsOnlyForOutput_enc (b : BitVec 16) (s : State) : StopsOnlyForOutput (.enc b) s := by
  by_cases legal : legalBase b = true
  · exact stopsOnlyForOutput_of_emit (z := leadingCount 0 (s.input.map BitVec.toNat)) (pad := symbolFor s.cfg 0)
      (body := (encodeDigits b.toNat s.input).map (symbolFor s.cfg)) (by simp [outputLength, legal])
      (by simp only [exec, execEnc, legal, if_true])
  · exact stopsOnlyForOutput_of_next (by simp [outputLength, legal])
      ⟨_, exec_enc_of_illegal_base (legalBase_eq_false.1 (by simpa using legal))⟩

theorem stopsOnlyForOutput_dec (b : BitVec 16) (s : State) : StopsOnlyForOutput (.dec b) s := by
  by_cases legal : legalBase b = true
  · cases scanned : scan (fun c => digitFor s.cfg c b.toNat) 0 s.input with
    | error e =>
      exact stopsOnlyForOutput_of_next (by simp [outputLength, legal, scanned])
        ⟨_, by simp only [exec, execDec, legal, if_true, scanned]; rfl⟩
    | ok ds =>
      exact stopsOnlyForOutput_of_emit (z := leadingCount 0 ds) (pad := 0)
        (body := toBase256 (fromDigits b.toNat ds)) (by simp [outputLength, legal, scanned])
        (by simp only [exec, execDec, legal, if_true, scanned])
  · exact stopsOnlyForOutput_of_next (by simp [outputLength, legal])
      ⟨_, exec_dec_of_illegal_base (legalBase_eq_false.1 (by simpa using legal))⟩

theorem stopsOnlyForOutput_stb (m : BitVec 16) (s : State) : StopsOnlyForOutput (.stb m) s :=
  stopsOnlyForOutput_of_emit (z := m.toNat - (toBase256 s.acc).length) (pad := 0) (body := toBase256 s.acc)
    (by simp only [outputLength]; omega) rfl

theorem stopsOnlyForOutput_std (n : BitVec 16) (s : State) : StopsOnlyForOutput (.std n) s := by
  by_cases legal : legalBase n = true
  · exact stopsOnlyForOutput_of_emit (z := 0) (pad := 0) (body := (digitsOf n.toNat s.acc).map (BitVec.ofNat 8))
      (by simp [outputLength, legal]) (by simp only [exec, execStd, legal, if_true])
  · exact stopsOnlyForOutput_of_next (by simp [outputLength, legal])
      ⟨_, exec_std_of_illegal_base (legalBase_eq_false.1 (by simpa using legal))⟩

/-- A command that writes no output always answers a next state. -/
theorem exec_next_of_quiet {i : Instr} (quiet : writesOutput i.mnemonic = false) (s : State) :
    ∃ t, exec i s = .next t := by
  cases i with
  | nop | ldb | clr => exact ⟨_, rfl⟩
  | enc | dec | stb | std => cases quiet
  | muladd | divmod | sym =>
    simp only [exec, execMuladd, execDivmod, execSym]
    split <;> exact ⟨_, rfl⟩
  | ldd | dig =>
    simp only [exec, execLdd, execDig]
    split
    · split <;> exact ⟨_, rfl⟩
    · exact ⟨_, rfl⟩

/-- Settles O46: the four output commands write exactly their output, the others have none. -/
theorem commandsStopOnlyForTooLongOutput : Obligations.CommandsStopOnlyForTooLongOutput := by
  intro i s
  cases i with
  | enc b => exact stopsOnlyForOutput_enc b s
  | dec b => exact stopsOnlyForOutput_dec b s
  | stb m => exact stopsOnlyForOutput_stb m s
  | std n => exact stopsOnlyForOutput_std n s
  | nop | ldb | clr | ldd | muladd | divmod | sym | dig =>
    exact stopsOnlyForOutput_of_next rfl (exec_next_of_quiet rfl s)

/-- A command whose output fits answers a next state. -/
theorem exec_next_of_fits {i : Instr} {s : State} (fits : OutputFits i s) : ∃ t, exec i s = .next t :=
  (commandsStopOnlyForTooLongOutput i s).1 fits

/-- Settles O36: `exec_effect` says what a completion sets, and the one way to stop is a refusal. -/
theorem completionSetsTheCompletionRegisters : Obligations.CompletionSetsTheCompletionRegisters := by
  refine fun i s => ⟨fun t h => ?_, fun f fault => ?_⟩
  · have effect := exec_effect h
    have records := effect.records
    obtain ⟨_, _, _, _, _, _, _, rfl⟩ := effect.frame
    exact ⟨rfl, rfl, records⟩
  · obtain ⟨next, refused⟩ := commandsStopOnlyForTooLongOutput i s
    by_cases fits : OutputFits i s
    · obtain ⟨t, run⟩ := next fits
      simp [run] at fault
    · simp [refused fits] at fault

/-! ## The bounds within which no command stops (93_implementation_defined.md U4) -/

theorem outputLength_enc_le (b : BitVec 16) (s : State) : outputLength (.enc b) s ≤ 8 * s.ilen.toNat := by
  rw [outputLength]
  split
  · next legal =>
    have bound := length_convert_le_eight_mul (legalBase_iff.1 legal).1 (toNat_lt_of_mem (y := s.input))
    rwa [length_convert, List.length_map, length_input, ← encodeDigits_eq] at bound
  · exact Nat.zero_le _

theorem outputLength_dec_le (b : BitVec 16) (s : State) : outputLength (.dec b) s ≤ s.ilen.toNat := by
  rw [outputLength]
  split
  · next legal =>
    obtain ⟨two_le, le_94⟩ := legalBase_iff.1 legal
    split
    · next ds accepted =>
      have digits := scan_eq_ok.1 accepted
      have length_eq : ds.length = s.ilen.toNat := by simpa using (congrArg List.length digits).symm
      have below : ∀ d ∈ ds, d < b.toNat := fun d hd => by
        obtain ⟨c, -, digit⟩ := List.mem_map.1 (digits ▸ List.mem_map_of_mem (f := some) hd)
        exact (digitFor_eq_some.1 digit).2.2
      have same := length_convert_self two_le below
      have anti := length_convert_anti two_le (by omega : b.toNat ≤ 256) b.toNat ds
      rw [same, length_convert, length_eq] at anti
      rwa [toBase256_eq, List.length_map]
    · exact Nat.zero_le _
  · exact Nat.zero_le _

/-- The value of `k` bytes has at most `8 * k` digits in any base. -/
theorem length_digitsOf_fromBase256_le {d : Nat} (hd : 2 ≤ d) (y : List Byte) :
    (digitsOf d (fromBase256 y)).length ≤ 8 * y.length := by
  have bound := length_convert_le_eight_mul hd (toNat_lt_of_mem (y := y))
  rw [length_convert, List.length_map, ← fromBase256_eq] at bound
  omega

/-- Settles O47: each output is as long as a change of radix of the input, which the bounds of U4 cover. -/
theorem boundedInputIsNeverRefused : Obligations.BoundedInputIsNeverRefused := by
  refine ⟨fun s b bound => exec_next_of_fits ((outputLength_enc_le b s).trans bound),
    fun s b bound => exec_next_of_fits ((outputLength_dec_le b s).trans bound), fun s t n bound h => ?_,
    fun s t m bound min_bound h => ?_⟩
  · cases h
    refine exec_next_of_fits (Nat.le_trans ?_ bound)
    rw [outputLength]
    split
    · next legal => simpa using length_digitsOf_fromBase256_le (legalBase_iff.1 legal).1 s.input
    · exact Nat.zero_le _
  · cases h
    have short := length_toBase256_fromBase256_le s.input
    rw [length_input] at short
    exact exec_next_of_fits (max_le min_bound (short.trans bound))

/-! ## What a command reads (00_scope.md section 5) -/

/-- Two states agree on what a command reads and on what it may leave alone: they differ at most in what no command
reads, the completion registers, the host's side and where the same input comes from. -/
structure SameOperands (s t : State) : Prop where
  input : t.input = s.input
  frame : ∃ ibuf ilen done err errchar errpos cmdr host reads epoch draws,
    t = { s with
      ibuf := ibuf, ilen := ilen, done := done, err := err, errchar := errchar, errpos := errpos, cmdr := cmdr,
      host := host, reads := reads, epoch := epoch, draws := draws }

/-- The state `t` with the results that a command left in `r`. -/
def withResults (t r : State) : State :=
  { t with
    acc := r.acc, res := r.res, obuf := r.obuf, olen := r.olen, err := r.err, errchar := r.errchar, errpos := r.errpos,
    done := r.done, cmdr := r.cmdr }

/-- A next state changed by `f`; a stop as it is. -/
def mapNext (f : State → State) (o : Host.Outcome State Fault Refusal) : Host.Outcome State Fault Refusal :=
  andThen o fun r => .next (f r)

section SameOperands
variable {s t : State}

theorem raise_eq_withResults (same : SameOperands s t) (m : Option Mnemonic) (e : Raised) :
    Host.Outcome.next (raise m e t) = mapNext (withResults t) (.next (raise m e s)) := by
  obtain ⟨-, _, _, _, _, _, _, _, _, _, _, _, rfl⟩ := same
  unfold raise
  split <;> split <;> rfl

theorem emit_eq_mapNext (same : SameOperands s t) (z : Nat) (pad : Byte) (body : List Byte) :
    emit z pad body { t with acc := 0 } = mapNext (withResults t) (emit z pad body { s with acc := 0 }) := by
  obtain ⟨-, _, _, _, _, _, _, _, _, _, _, _, rfl⟩ := same
  unfold emit
  split <;> rfl

/-- A command does the same in two states that agree on its operands, but for what it leaves alone. -/
theorem exec_eq_mapNext (same : SameOperands s t) (i : Instr) : exec i t = mapNext (withResults t) (exec i s) := by
  have raised := raise_eq_withResults same
  have emitted := emit_eq_mapNext same
  obtain ⟨input, _, _, _, _, _, _, _, _, _, _, _, rfl⟩ := same
  cases i with
  | nop | clr => rfl
  | ldb => simp only [exec, execLdb, input]; rfl
  | muladd | divmod | sym =>
    simp only [exec, execMuladd, execDivmod, execSym]
    split
    · rfl
    · exact raised _ _
  | dig =>
    simp only [exec, execDig]
    split
    · split
      · exact raised _ _
      · rfl
    · exact raised _ _
  | ldd =>
    simp only [exec, execLdd, input]
    split
    · split
      · exact raised _ _
      · rfl
    · exact raised _ _
  | enc =>
    simp only [exec, execEnc, input]
    split
    · exact emitted ..
    · exact raised _ _
  | dec =>
    simp only [exec, execDec, input]
    split
    · split
      · exact raised _ _
      · exact emitted ..
    · exact raised _ _
  | stb => exact emitted ..
  | std =>
    simp only [exec, execStd]
    split
    · exact emitted ..
    · exact raised _ _

/-- States with the same operands, field by field. -/
theorem sameOperands_of_eq (cfg : s.cfg = t.cfg) (input : s.input = t.input) (acc : s.acc = t.acc) (res : s.res = t.res)
    (obuf : s.obuf = t.obuf) (olen : s.olen = t.olen) : SameOperands s t where
  input := input.symm
  frame := ⟨t.ibuf, t.ilen, t.done, t.err, t.errchar, t.errpos, t.cmdr, t.host, t.reads, t.epoch, t.draws, by
    rw [cfg, acc, res, obuf, olen]⟩

/-- The input written to IBUF as it is reads the same. -/
theorem sameOperands_written (s : State) : SameOperands { s with ibuf := cellsFrom 0 s.input } s where
  input := (input_cellsFrom (s := { s with ibuf := cellsFrom 0 s.input }) rfl (length_input s).symm).symm
  frame := ⟨s.ibuf, s.ilen, s.done, s.err, s.errchar, s.errpos, s.cmdr, s.host, s.reads, s.epoch, s.draws, rfl⟩

end SameOperands

/-- Two states agree on what ENC and DEC leave behind: the output, the completion registers, and ACC but after
InvalidBase (60_exceptions.md R237, R238). -/
structure SameConversion (s t : State) : Prop where
  obuf : t.obuf = s.obuf
  olen : t.olen = s.olen
  err : t.err = s.err
  errchar : t.errchar = s.errchar
  errpos : t.errpos = s.errpos
  acc : s.err ≠ .invalidBase → t.acc = s.acc

/-- An error that drops the output, and ACC unless it is InvalidBase, leaves the same in any two states. -/
theorem sameConversion_raise (s t : State) {m : Option Mnemonic} {e : Raised} (output : dropsOutput m e = true)
    (acc : e.code ≠ .invalidBase → dropsAcc m e = true) : SameConversion (raise m e s) (raise m e t) where
  obuf := by simp [output]
  olen := by simp [output]
  err := by simp
  errchar := by simp
  errpos := by simp
  acc := fun other => by simp [acc (by simpa using other)]

/-- An output that fits leaves the same in any two states of one configuration and one ACC. -/
theorem sameConversion_emit {s t s' : State} {z : Nat} {pad : Byte} {body : List Byte}
    (h : emit z pad body s = .next s') (cfg : s.cfg = t.cfg) (acc : s.acc = t.acc) :
    ∃ t', emit z pad body t = .next t' ∧ SameConversion s' t' := by
  obtain ⟨fits, rfl⟩ := emit_eq_next.1 h
  exact ⟨_, emit_of_le (cfg ▸ fits), rfl, rfl, rfl, rfl, rfl, fun _ => acc.symm⟩

theorem exec_enc_sameConversion {b : BitVec 16} {s t s' : State} (cfg : s.cfg = t.cfg) (input : s.input = t.input)
    (h : exec (.enc b) s = .next s') : ∃ t', exec (.enc b) t = .next t' ∧ SameConversion s' t' := by
  simp only [exec, execEnc, cfg, input] at h ⊢
  cases legal : legalBase b <;> simp only [legal, Bool.false_eq_true, if_true, if_false] at h ⊢
  · cases h; exact ⟨_, rfl, sameConversion_raise s t rfl nofun⟩
  · exact sameConversion_emit h rfl rfl

theorem exec_dec_sameConversion {b : BitVec 16} {s t s' : State} (cfg : s.cfg = t.cfg) (input : s.input = t.input)
    (h : exec (.dec b) s = .next s') : ∃ t', exec (.dec b) t = .next t' ∧ SameConversion s' t' := by
  simp only [exec, execDec, cfg, input] at h ⊢
  cases legal : legalBase b <;> simp only [legal, Bool.false_eq_true, if_true, if_false] at h ⊢
  · cases h; exact ⟨_, rfl, sameConversion_raise s t rfl nofun⟩
  · cases scanned : scan (fun c => digitFor t.cfg c b.toNat) 0 t.input <;> simp only [scanned] at h ⊢
    · cases h; exact ⟨_, rfl, sameConversion_raise s t rfl fun _ => rfl⟩
    · exact sameConversion_emit h rfl rfl

/-- Settles O40: the results of one run are those of the other, put beside what the command leaves alone. -/
theorem commandsDependOnlyOnTheirOperands : Obligations.CommandsDependOnlyOnTheirOperands := by
  refine ⟨fun i s t s' cfg _ input acc res obuf olen h => ?_, fun b i s t s' conversion cfg _ input h => ?_,
    fun i s t h => ?_⟩
  · have run := exec_eq_mapNext (sameOperands_of_eq cfg input acc res obuf olen) i
    rw [h] at run
    exact ⟨_, run, rfl, rfl, rfl, rfl, rfl, rfl, rfl⟩
  · obtain ⟨t', run, same⟩ : ∃ t', exec i t = .next t' ∧ SameConversion s' t' := by
      rcases conversion with rfl | rfl
      · exact exec_enc_sameConversion cfg input h
      · exact exec_dec_sameConversion cfg input h
    exact ⟨t', run, same.obuf, same.olen, same.err, same.errchar, same.errpos, same.acc⟩
  · have run := exec_eq_mapNext (sameOperands_written s) i
    rw [h] at run
    obtain ⟨_, _, _, _, _, _, _, rfl⟩ := (exec_effect h).frame
    exact run

/-! ## An accepted command completes (70_reset_and_hazards.md R284) -/

/-- The output a word leaves fits, if it is the word of a command. -/
def WordFits (w : Word) (s : State) : Prop := ∀ i, decode w = .ok i → OutputFits i s

/-- The host's side has no part in a command's output. -/
theorem wordFits_of_hostSide {w : Word} {s : State} (fits : WordFits w s) (host : List HostTurn) (reads : List HostRead)
    (draws : Nat) : WordFits w { s with host := host, reads := reads, draws := draws } := by
  intro i decoded
  have fits_i := fits i decoded
  cases i <;> exact fits_i

/-- A word whose output fits runs to its completion and keeps the host's turns (44_control.md R212). -/
theorem runWord_next_of_fits {w : Word} {s : State} (fits : WordFits w s) :
    ∃ t, runWord w s = .next t ∧ t.cmdr = none ∧ t.done = true ∧ t.host = s.host := by
  have next : ∃ t, runWord w s = .next t := by
    cases decoded : decode w with
    | error e => exact ⟨_, runWord_of_illegal s decoded⟩
    | ok i =>
      obtain ⟨t, run⟩ := exec_next_of_fits (fits i decoded)
      exact ⟨t, by rw [runWord, decoded]; exact run⟩
  obtain ⟨t, run⟩ := next
  obtain ⟨_, _, _, _, _, _, _, rfl⟩ := (runWord_effect run).frame
  exact ⟨_, run, rfl, rfl, rfl⟩

/-- With a command in progress and no host turn to come first, it is the engine's turn (log 11). -/
theorem engineTurn_of_waits {s : State} {w : Word} (word : s.cmdr = some w)
    (waits : ∀ turn ∈ s.host.head?, turn.waits = true) : s.engineTurn = true := by
  have busy : s.busy = true := by simp [State.busy, word]
  unfold State.engineTurn
  rw [busy]
  cases host : s.host with
  | nil => rfl
  | cons turn rest => simpa [host] using waits

/-- A read of STATUS marked to come first is taken before the engine's step (log 11). -/
theorem step_statusRead_first {s : State} {w : Word} {rest : List HostTurn} (word : s.cmdr = some w)
    (host : s.host = ⟨false, .access (.readReg 1)⟩ :: rest) :
    ∃ reads draws, step s = .next { s with host := rest, reads := reads, draws := draws } := by
  have not_engine : s.engineTurn = false := by simp [State.engineTurn, host]
  refine ⟨s.reads ++ [.reg 1 (s.statusBusy (Config.busyStatus s.draws))], s.draws + 1, ?_⟩
  rw [step, not_engine, if_neg Bool.false_ne_true, hostStep, host]
  exact readStatus_of_busy (s := { s with host := rest }) word

/-- A run whose first step answers a next state goes on from there. -/
theorem coreRun_succ_of_step {M : Host.Core} {s t : M.State} (n : Nat) (h : M.step s = .next t) :
    M.run (n + 1) s = M.run n t := by
  rw [Host.Core.run, h]

theorem run_succ_of_step {s t : State} (n : Nat) (h : step s = .next t) :
    Sys2Proof.core.run (n + 1) s = Sys2Proof.core.run n t :=
  coreRun_succ_of_step (M := Sys2Proof.core) n h

/-- Settles O41: by induction on the STATUS reads, which leave the word and its output as they are. -/
theorem acceptedCommandCompletes : Obligations.AcceptedCommandCompletes := by
  intro s w n rest word host waits fits
  induction n generalizing s with
  | zero =>
    have turn := engineTurn_of_waits word (by simpa [host] using waits)
    obtain ⟨t, run, idle, done, host_eq⟩ := runWord_next_of_fits fits
    have completed := step_of_engineTurn word turn ▸ run
    exact ⟨t, run_succ_of_step 0 completed, idle, done, host_eq.trans host⟩
  | succ n ih =>
    obtain ⟨reads, draws, read⟩ := step_statusRead_first word host
    rw [run_succ_of_step _ read]
    exact ih _ word rfl (wordFits_of_hostSide fits _ reads draws)

end Sys2Proof.Proofs
end

section
/-! PROOFS. The completion codes (60_exceptions.md section 1, the table): each command completes with the codes of its
row and no other. -/

namespace Sys2Proof.Proofs

open Sys2Proof Sys2Proof.Machine Sys2Proof.Laws

/-- A command with a legal word never completes with IllegalCommand (60_exceptions.md R234). -/
theorem err_ne_illegalCommand_of_wf {i : Instr} {s t : State} (wf : i.wf = true) (h : exec i s = .next t) :
    t.err ≠ .illegalCommand := by
  intro illegal
  cases i with
  | nop | clr | ldb => cases h; cases illegal
  | stb => simp [err_of_stb h] at illegal
  | muladd => rw [exec_muladd_of_legal_radix wf] at h; cases h; cases illegal
  | divmod => rw [exec_divmod_of_legal_radix wf] at h; cases h; cases illegal
  | sym => rw [exec_sym_of_le (legalDigit_iff.1 wf)] at h; cases h; cases illegal
  | enc | std =>
    simp only [exec, execEnc, execStd] at h
    split at h
    · simp [err_of_emit h] at illegal
    · cases h; simp [Raised.code] at illegal
  | dec =>
    simp only [exec, execDec] at h
    split at h
    · split at h
      · cases h; simp [Raised.code] at illegal
      · simp [err_of_emit h] at illegal
    · cases h; simp [Raised.code] at illegal
  | ldd | dig =>
    simp only [exec, execLdd, execDig] at h
    split at h
    · split at h <;> cases h <;> simp [Raised.code] at illegal
    · cases h; simp [Raised.code] at illegal

/-- What a command raises, other than IllegalCommand, is in its row of the table (60_exceptions.md R230). -/
theorem mayComplete_of_raises {i : Instr} {m : Option Mnemonic} {e : Raised} (raises : Raises i m e)
    (legal : e.code ≠ .illegalCommand) : mayComplete i.mnemonic e.code = true := by
  cases raises with
  | invalidBase b base => rcases baseOf_eq_some_iff.1 base with rfl | rfl | rfl | rfl | ⟨c, rfl⟩ <;> rfl
  | invalidCharacter c pos judges => rcases judges with dec | dig <;> simp [*, Raised.code, mayComplete]
  | invalidDigit d pos judges => simp [judges, Raised.code, mayComplete]
  | illegalCommand => exact absurd rfl legal

/-- A command with a legal word completes with a code of its row only. -/
theorem mayComplete_of_exec {i : Instr} {s t : State} (wf : i.wf = true) (h : exec i s = .next t) :
    mayComplete i.mnemonic t.err = true := by
  by_cases ok : t.err = .ok
  · rw [ok]; cases i.mnemonic <;> rfl
  · have legal := err_ne_illegalCommand_of_wf wf h
    obtain ⟨m, e, raises, rfl⟩ := exec_raises h ok
    rw [raise_err] at legal ⊢
    exact mayComplete_of_raises raises legal

/-! ## Each code of the table is reached -/

/-- Some command of this name with a legal word completes with this code. -/
def Reaches (m : Mnemonic) (c : CompletionCode) : Prop :=
  ∃ (i : Instr) (s t : State), i.wf = true ∧ i.mnemonic = m ∧ exec i s = .next t ∧ t.err = c

/-- Every command succeeds from reset, with a legal base and a symbol of it. -/
theorem reaches_ok (m : Mnemonic) : Reaches m .ok := by
  cases m with
  | nop => exact ⟨.nop, State.reset, _, rfl, rfl, rfl, rfl⟩
  | enc => exact ⟨.enc 94, State.reset, _, rfl, rfl, exec_enc_of_empty rfl rfl, rfl⟩
  | dec => exact ⟨.dec 94, State.reset, _, rfl, rfl, exec_dec_of_empty rfl rfl, rfl⟩
  | ldb => exact ⟨.ldb, State.reset, _, rfl, rfl, rfl, rfl⟩
  | stb => exact ⟨.stb 0, State.reset, _, rfl, rfl, exec_stb_of_fits (by decide), rfl⟩
  | ldd => exact ⟨.ldd 94, State.reset, _, rfl, rfl, exec_ldd_of_digits rfl nofun, rfl⟩
  | std => exact ⟨.std 94, State.reset, _, rfl, rfl, exec_std_of_legal_base rfl (by decide), rfl⟩
  | muladd => exact ⟨.muladd 256 0, State.reset, _, rfl, rfl, exec_muladd_of_legal_radix rfl, rfl⟩
  | divmod => exact ⟨.divmod 256, State.reset, _, rfl, rfl, exec_divmod_of_legal_radix rfl, rfl⟩
  | sym => exact ⟨.sym 93, State.reset, _, rfl, rfl, exec_sym_of_le (by decide), rfl⟩
  | dig => exact ⟨.dig 0x30 94, State.reset, _, rfl, rfl, exec_dig_of_mem rfl (by decide), rfl⟩
  | clr => exact ⟨.clr, State.reset, _, rfl, rfl, exec_clr _, rfl⟩

/-- The reset state with one byte written to IBUF, a space, which is no symbol of the reference alphabet and no digit of
a legal base below 33. -/
def oneSpace : State := { State.reset with ibuf := [(0, 0x20)], ilen := 1 }

theorem input_oneSpace : oneSpace.input = [0x20] := by decide

/-- The errors of the table, each from a state that raises it (60_exceptions.md R231 to R233). -/
theorem reaches_error {m : Mnemonic} {c : CompletionCode} (row : mayComplete m c = true) (error : c ≠ .ok) :
    Reaches m c := by
  cases c with
  | ok => exact absurd rfl error
  | illegalCommand => cases m <;> cases row
  | invalidBase =>
    have illegal : (0 : BitVec 16).toNat < 2 ∨ 94 < (0 : BitVec 16).toNat := by decide
    cases m with
    | enc => exact ⟨.enc 0, State.reset, _, rfl, rfl, exec_enc_of_illegal_base illegal, rfl⟩
    | dec => exact ⟨.dec 0, State.reset, _, rfl, rfl, exec_dec_of_illegal_base illegal, rfl⟩
    | ldd => exact ⟨.ldd 0, State.reset, _, rfl, rfl, exec_ldd_of_illegal_base illegal, rfl⟩
    | std => exact ⟨.std 0, State.reset, _, rfl, rfl, exec_std_of_illegal_base illegal, rfl⟩
    | dig => exact ⟨.dig 0x30 0, State.reset, _, rfl, rfl, exec_dig_of_illegal_base illegal, rfl⟩
    | nop | ldb | stb | muladd | divmod | sym | clr => cases row
  | invalidCharacter =>
    have no_symbol : (0x20 : Byte) ∉ State.reset.cfg.alpha.take (2 : BitVec 16).toNat := by decide
    cases m with
    | dec => exact ⟨.dec 2, oneSpace, _, rfl, rfl,
        exec_dec_of_first_not_mem (k := 0) (c := 0x20) rfl (by rw [input_oneSpace]; rfl) no_symbol nofun, rfl⟩
    | dig => exact ⟨.dig 0x20 2, State.reset, _, rfl, rfl, exec_dig_of_not_mem rfl no_symbol, rfl⟩
    | nop | enc | ldb | stb | ldd | std | muladd | divmod | sym | clr => cases row
  | invalidDigit =>
    cases m with
    | ldd => exact ⟨.ldd 2, oneSpace, _, rfl, rfl,
        exec_ldd_of_first_not_below (k := 0) (d := 0x20) rfl (by rw [input_oneSpace]; rfl) (by decide) nofun, rfl⟩
    | nop | enc | dec | ldb | stb | std | muladd | divmod | sym | dig | clr => cases row

/-- Settles O42: a completion is a success or one of the errors a command raises, and each code of a row is reached. -/
theorem completionCodesByCommand : Obligations.CompletionCodesByCommand := by
  intro m c
  constructor
  · rintro ⟨i, s, t, wf, rfl, h, rfl⟩
    exact mayComplete_of_exec wf h
  · intro row
    by_cases ok : c = .ok
    · exact ok ▸ reaches_ok m
    · exact reaches_error row ok

end Sys2Proof.Proofs
end

section
/-! PROOFS. The input (20_memory.md R61) and the step (44_control.md section 1): which cells a command reads, and what a
step does with a word, with a host turn and with neither. -/

namespace Sys2Proof.Proofs

open Sys2Proof Sys2Proof.Machine Sys2Proof.Laws

/-- Element `k` of the input is cell `k`, as long as it is below ILEN (20_memory.md R61). -/
theorem getElem?_input (s : State) (k : Nat) :
    s.input[k]? = if k < s.ilen.toNat then some (s.ibufCell k) else none := by
  rw [State.input, List.getElem?_map]
  split
  · next lt => rw [List.getElem?_range lt]; rfl
  · next ge => rw [List.getElem?_eq_none (by simpa using ge)]; rfl

/-- A cell that the host has written reads as it was written (44_control.md R219). -/
theorem ibufCell_of_written {s : State} {k : Nat} {v : Byte} (written : s.ibuf.read k = some v) : s.ibufCell k = v := by
  rw [State.ibufCell, written]

/-- A cell never written since reset reads as its free value (93_implementation_defined.md U1). -/
theorem ibufCell_of_unwritten {s : State} {k : Nat} (unwritten : s.ibuf.read k = none) :
    s.ibufCell k = Config.unwrittenIbuf s.epoch k := by
  rw [State.ibufCell, unwritten]

/-- Settles O17: element by element. -/
theorem inputIsTheCellsBelowIlen : Obligations.InputIsTheCellsBelowIlen := by
  refine fun s k => ⟨fun lt v written => ?_, fun ge => ?_, fun lt unwritten => ?_⟩
  · rw [getElem?_input, if_pos lt, ibufCell_of_written written]
  · rw [getElem?_input, if_neg (not_lt.2 ge)]
  · rw [getElem?_input, if_pos lt, ibufCell_of_unwritten unwritten]

/-- When it is not the engine's turn the host's next turn is taken out of the list and done (log 11). -/
theorem step_of_hostTurn {s : State} {turn : HostTurn} {rest : List HostTurn} (not_engine : s.engineTurn = false)
    (host : s.host = turn :: rest) : step s = hostAction turn.action { s with host := rest } := by
  rw [step, not_engine, if_neg Bool.false_ne_true, hostStep, host]

theorem engineTurn_of_idle {s : State} (idle : s.cmdr = none) : s.engineTurn = false := by
  simp [State.engineTurn, busy_eq_false.2 idle]

/-- An idle engine without a host turn keeps its state (60_exceptions.md R254, log 13). -/
theorem step_of_nothing {s : State} (idle : s.cmdr = none) (host : s.host = []) : step s = .next s := by
  rw [step, engineTurn_of_idle idle, if_neg Bool.false_ne_true, hostStep, host]

theorem tableWord_toNat (w : Word) : tableWord 32 w.toNat = w := by
  rw [tableWord, Nat.mod_eq_of_lt w.isLt, BitVec.ofNat_toNat, BitVec.setWidth_eq]

/-- The word that `withFetchWord` accepts is run by the very next step (log 12). -/
theorem step_withFetchWord (s : State) (w : Word) :
    step (s.withFetchWord 32 w.toNat) = runWord w (s.withFetchWord 32 w.toNat) := by
  have word : (s.withFetchWord 32 w.toNat).cmdr = some w := congrArg some (tableWord_toNat w)
  exact step_of_engineTurn word (engineTurn_of_waits word nofun)

/-- Settles O35: one lemma for each case of a step. -/
theorem stepRunsDecodedCommand : Obligations.StepRunsDecodedCommand := by
  refine ⟨fun s w i word turn decoded => ?_, fun s w e word turn illegal => ?_,
    fun s turn rest not_engine host => step_of_hostTurn not_engine host, fun s idle host => step_of_nothing idle host,
    step_withFetchWord⟩
  · rw [step_of_engineTurn word turn, runWord, decoded]
  · rw [step_of_engineTurn word turn, runWord_of_illegal s illegal]

end Sys2Proof.Proofs
end

section
/-! PROOFS. The host's side (20_memory.md, 44_control.md section 4): registers that do not exist, the access to one
buffer cell, and the bus addresses of the registers. -/

namespace Sys2Proof.Proofs

open Sys2Proof Sys2Proof.Machine Sys2Proof.Laws

/-! ## Registers above 6 (10_state.md R30, 93_implementation_defined.md U3, U8) -/

theorem readRegIdle_of_ge {n : Nat} (ge : 7 ≤ n) (s : State) : readRegIdle n s = .fault .noSuchRegister := by
  obtain ⟨k, rfl⟩ := Nat.exists_eq_add_of_le' ge
  rfl

theorem writeRegIdle_of_ge {n : Nat} (ge : 7 ≤ n) (v : Word) (s : State) :
    writeRegIdle n v s = .fault .noSuchRegister := by
  obtain ⟨k, rfl⟩ := Nat.exists_eq_add_of_le' ge
  rfl

/-- Settles O52: both accesses reach the last case of their register table, and ILEN is held against CAP. -/
theorem noSuchRegisterAndNoSuchLength : Obligations.NoSuchRegisterAndNoSuchLength := by
  refine fun s v idle => ⟨fun n ge => ⟨?_, ?_⟩, fun ⟨c, bounded, above⟩ => ?_⟩
  · rw [readReg_of_idle n idle, readRegIdle_of_ge ge]
  · rw [writeReg_of_idle n v idle, writeRegIdle_of_ge ge]
  · have too_long : ¬ allowsLength s.cfg v = true := fun allowed =>
      absurd (allowsLength_iff.1 allowed c bounded) (not_le.2 above)
    rw [writeReg_of_idle 2 v idle]
    exact if_neg too_long

/-! ## Buffer cells (44_control.md R219) -/

theorem hasCell_iff {cfg : Config} {i : Nat} : cfg.hasCell i = true ↔ ∀ c ∈ cfg.cap, i < c := by
  unfold Config.hasCell
  split
  · next unbounded => simp [unbounded]
  · next c bounded => simp [bounded]

section Cell
variable {s : State} {i : Nat}

theorem readIbuf_of_cell (idle : s.cmdr = none) (cell : s.cfg.hasCell i = true) :
    hostAccess (.readIbuf i) s = .next (s.logRead (.ibuf i (s.ibufCell i))) := by
  rw [hostAccess_of_idle _ idle]
  exact if_pos cell

theorem writeIbuf_of_cell (idle : s.cmdr = none) (cell : s.cfg.hasCell i = true) (v : Byte) :
    hostAccess (.writeIbuf i v) s = .next { s with ibuf := s.ibuf.write i v } := by
  rw [hostAccess_of_idle _ idle]
  exact if_pos cell

theorem writeObuf_of_cell (idle : s.cmdr = none) (cell : s.cfg.hasCell i = true) (v : Byte) :
    hostAccess (.writeObuf i v) s = .next s := by
  rw [hostAccess_of_idle _ idle]
  exact if_pos cell

/-- An OBUF cell below OLEN reads as the output's element (10_state.md R39). -/
theorem readObuf_of_output (idle : s.cmdr = none) (cell : s.cfg.hasCell i = true) (below : i < s.olen.toNat) {v : Byte}
    (holds : s.obuf.read i = some v) : hostAccess (.readObuf i) s = .next (s.logRead (.obuf i v)) := by
  rw [hostAccess_of_idle _ idle, accessIdle, readObufIdle, if_pos cell, if_pos below, holds]

/-- An OBUF cell at OLEN or above reads as a free value (93_implementation_defined.md U2, log 6). -/
theorem readObuf_of_stale (idle : s.cmdr = none) (cell : s.cfg.hasCell i = true) (stale : ¬ i < s.olen.toNat) :
    hostAccess (.readObuf i) s = .next (s.logRead (.obuf i (Config.staleObuf s.draws i))).drew := by
  rw [hostAccess_of_idle _ idle, accessIdle, readObufIdle, if_pos cell, if_neg stale]

/-- There is no cell at CAP or above (93_implementation_defined.md U3, log 10). -/
theorem cellAccess_of_no_cell (idle : s.cmdr = none) (no_cell : ¬ s.cfg.hasCell i = true) (v : Byte) :
    hostAccess (.writeIbuf i v) s = .fault .noSuchCell ∧ hostAccess (.readIbuf i) s = .fault .noSuchCell ∧
      hostAccess (.readObuf i) s = .fault .noSuchCell ∧ hostAccess (.writeObuf i v) s = .fault .noSuchCell := by
  simp only [hostAccess_of_idle _ idle]
  exact ⟨if_neg no_cell, if_neg no_cell, if_neg no_cell, if_neg no_cell⟩

end Cell

/-- Settles O53: one lemma for each access, and the write is known cell by cell. -/
theorem bufferAccessesMoveOneCell : Obligations.BufferAccessesMoveOneCell := by
  refine fun s i v idle => ⟨fun below => ?_, fun ⟨c, bounded, above⟩ => cellAccess_of_no_cell idle ?_ v⟩
  · have cell := hasCell_iff.2 below
    refine ⟨⟨s.ibuf.write i v, writeIbuf_of_cell idle cell v, read_write_same s.ibuf i v,
        fun j other => read_write_other s.ibuf v other, wf_write s.ibuf i v⟩, fun u written => ?_, fun unwritten => ?_,
      fun u below_olen holds => readObuf_of_output idle cell below_olen holds,
      fun above_olen => ⟨_, readObuf_of_stale idle cell (not_lt.2 above_olen)⟩, writeObuf_of_cell idle cell v⟩
    · rw [readIbuf_of_cell idle cell, ibufCell_of_written written]; rfl
    · rw [readIbuf_of_cell idle cell, ibufCell_of_unwritten unwritten]; rfl
  · exact fun cell => absurd (hasCell_iff.1 cell c bounded) (not_lt.2 above)

/-! ## Bus addresses (10_state.md R30, 20_memory.md R65) -/

/-- Register `n` is at `RCE_BASE + 4·n` for an access of 4 bytes, and nowhere else (20_memory.md R65, log 18). -/
theorem registerAt_eq_some {cfg : Config} {addr bytes n : Nat} : registerAt cfg addr bytes = some n ↔
    ∃ base, cfg.rceBase = some base ∧ n ≤ 6 ∧ addr = base + 4 * n ∧ bytes = 4 := by
  unfold registerAt
  cases cfg.rceBase with
  | none => simp
  | some base =>
    simp only [Option.ite_none_right_eq_some, Option.some.injEq, exists_eq_left']
    omega

/-- An access by address is the access to the register at that address, busy or not (20_memory.md R65). -/
theorem hostAccess_at_address {s : State} {addr bytes n : Nat} (register : registerAt s.cfg addr bytes = some n)
    (v : Word) : hostAccess (.readAddr addr bytes) s = hostAccess (.readReg n) s ∧
      hostAccess (.writeAddr addr bytes v) s = hostAccess (.writeReg n v) s := by
  simp only [hostAccess, accessBusy, accessIdle, readsStatus, register, Option.some.injEq]
  exact ⟨rfl, rfl⟩

/-- An address of no register faults while the engine is idle (93_implementation_defined.md U8, log 10). -/
theorem hostAccess_at_no_register {s : State} {addr bytes : Nat} (idle : s.cmdr = none)
    (no_register : registerAt s.cfg addr bytes = none) (v : Word) :
    hostAccess (.readAddr addr bytes) s = .fault .noSuchRegister ∧
      hostAccess (.writeAddr addr bytes v) s = .fault .noSuchRegister := by
  constructor <;> rw [hostAccess_of_idle _ idle, accessIdle, no_register]

/-- Settles O54: the addresses of the registers are those of `registerAt`. -/
theorem busAddressesNameTheRegisters : Obligations.BusAddressesNameTheRegisters := by
  refine ⟨fun s base n v mapped le => hostAccess_at_address (registerAt_eq_some.2 ⟨base, mapped, le, rfl, rfl⟩) v,
    fun s addr bytes v idle nowhere => hostAccess_at_no_register idle (Option.eq_none_iff_forall_ne_some.2 ?_) v⟩
  intro n register
  obtain ⟨base, mapped, le, address, width⟩ := registerAt_eq_some.1 register
  exact nowhere ⟨base, n, mapped, le, address, width⟩

end Sys2Proof.Proofs
end

section
/-! PROOFS. The host actions (30_encoding.md R102) and the protocol of a call (44_control.md R221): IN, OUT and MOVE as
sequences of accesses, and a whole call as a run. -/

namespace Sys2Proof.Proofs

open Sys2Proof Sys2Proof.Machine Sys2Proof.Laws

/-! ## Writing a sequence to IBUF -/

/-- The cells after a sequence is written from index `start`, in index order. -/
def writeFrom (start : Nat) : List Byte → Memory → Memory
  | [], m => m
  | v :: rest, m => writeFrom (start + 1) rest (m.write start v)

/-- The cells written hold the sequence, and every other cell is as it was. -/
theorem read_writeFrom (start : Nat) (es : List Byte) (m : Memory) (k : Nat) :
    (writeFrom start es m).read k = if start ≤ k ∧ k < start + es.length then es[k - start]? else m.read k := by
  induction es generalizing start m with
  | nil => rw [writeFrom, if_neg]; simp
  | cons v es ih =>
    rw [writeFrom, ih, List.length_cons]
    rcases Nat.lt_trichotomy k start with below | rfl | above
    · rw [if_neg (by omega), if_neg (by omega), read_write_other _ _ (by omega)]
    · rw [if_neg (by omega), if_pos (by omega), read_write_same, Nat.sub_self, List.getElem?_cons_zero]
    · have index : k - start = k - (start + 1) + 1 := by omega
      by_cases inside : k < start + 1 + es.length
      · rw [if_pos (by omega), if_pos (by omega), index, List.getElem?_cons_succ]
      · rw [if_neg (by omega), if_neg (by omega), read_write_other _ _ (by omega)]

theorem read_writeFrom_zero (es : List Byte) (m : Memory) (k : Nat) :
    (writeFrom 0 es m).read k = if k < es.length then es[k]? else m.read k := by
  simpa using read_writeFrom 0 es m k

/-- Cells `start` to `start + n − 1` are below CAP. -/
def HasCells (cfg : Config) (start n : Nat) : Prop := ∀ c ∈ cfg.cap, start + n ≤ c

theorem HasCells.head {cfg : Config} {start n : Nat} (cells : HasCells cfg start (n + 1)) : cfg.hasCell start = true :=
  hasCell_iff.2 fun c bounded => by have := cells c bounded; omega

theorem HasCells.tail {cfg : Config} {start n : Nat} (cells : HasCells cfg start (n + 1)) :
    HasCells cfg (start + 1) n := fun c bounded => by have := cells c bounded; omega

theorem hostAccesses_cons_of_next {a : HostAccess} {as : List HostAccess} {s t : State}
    (first : hostAccess a s = .next t) : hostAccesses (a :: as) s = hostAccesses as t := by
  rw [hostAccesses, first, andThen]

/-- The writes of IN to IBUF, whatever comes after them (30_encoding.md R102). -/
theorem hostAccesses_ibufWrites (as : List HostAccess) (es : List Byte) {start : Nat} {s : State} (idle : s.cmdr = none)
    (cells : HasCells s.cfg start es.length) :
    hostAccesses (ibufWrites start es ++ as) s = hostAccesses as { s with ibuf := writeFrom start es s.ibuf } := by
  induction es generalizing start s with
  | nil => rfl
  | cons v es ih =>
    rw [ibufWrites, List.cons_append, hostAccesses_cons_of_next (writeIbuf_of_cell idle cells.head v)]
    exact ih (s := { s with ibuf := s.ibuf.write start v }) idle cells.tail

/-- A length that fits the register and the buffer may be written to ILEN (10_state.md R32). -/
theorem ilen_fits {cfg : Config} {n : Nat} (lt : n < 2 ^ 32) (cells : HasCells cfg 0 n) :
    ∀ c ∈ cfg.cap, (BitVec.ofNat 32 n).toNat ≤ c := fun c bounded => by
  have := cells c bounded
  rw [BitVec.toNat_ofNat, Nat.mod_eq_of_lt lt]
  omega

/-- The state with the input `es` in the first cells of IBUF. -/
def withInput (s : State) (es : List Byte) : State :=
  { s with ibuf := writeFrom 0 es s.ibuf, ilen := BitVec.ofNat 32 es.length }

/-- IN makes its elements the input (30_encoding.md R102). -/
theorem hostAccesses_inputAccesses {s : State} {es : List Byte} (idle : s.cmdr = none) (lt : es.length < 2 ^ 32)
    (cells : HasCells s.cfg 0 es.length) : hostAccesses (inputAccesses es) s = .next (withInput s es) := by
  rw [inputAccesses, hostAccesses_ibufWrites _ es idle cells]
  exact hostAccesses_cons_of_next
    (writeIlen_of_idle (s := { s with ibuf := writeFrom 0 es s.ibuf }) idle (ilen_fits lt cells))

theorem input_withInput {s : State} {es : List Byte} (lt : es.length < 2 ^ 32) : (withInput s es).input = es := by
  have ilen : (withInput s es).ilen.toNat = es.length := by
    rw [withInput, BitVec.toNat_ofNat, Nat.mod_eq_of_lt lt]
  refine List.ext_getElem? fun k => ?_
  rw [getElem?_input, ilen]
  split
  · next inside =>
    have written : (withInput s es).ibuf.read k = some es[k] := by
      rw [withInput, read_writeFrom_zero, if_pos inside, List.getElem?_eq_getElem inside]
    rw [ibufCell_of_written written, List.getElem?_eq_getElem inside]
  · next outside => rw [List.getElem?_eq_none (not_lt.1 outside)]

/-! ## OUT and MOVE -/

/-- What the host reads by OUT of the output `out`: OLEN and the elements in order (30_encoding.md R102). -/
def outReads (olen : Len) (out : List Byte) : List HostRead :=
  .reg 3 olen :: (List.range out.length).map fun k => .obuf k (out.getD k 0)

/-- Reads of cells of the output, in the order the host issues them. -/
theorem hostAccesses_readObuf (out : List Byte) (ks : List Nat) {s : State} (idle : s.cmdr = none)
    (held : s.obuf = cellsFrom 0 out) (olen : s.olen.toNat = out.length) (cells : HasCells s.cfg 0 out.length)
    (below : ∀ k ∈ ks, k < out.length) : hostAccesses (ks.map .readObuf) s =
      .next { s with reads := s.reads ++ ks.map fun k => .obuf k (out.getD k 0) } := by
  induction ks generalizing s with
  | nil => simp [hostAccesses]
  | cons k ks ih =>
    have lt : k < out.length := below k List.mem_cons_self
    have cell : s.cfg.hasCell k = true := hasCell_iff.2 fun c bounded => by have := cells c bounded; omega
    have holds : s.obuf.read k = some (out.getD k 0) := by
      rw [held, read_cellsFrom_zero, List.getD_eq_getElem _ _ lt, List.getElem?_eq_getElem lt]
    rw [List.map_cons, hostAccesses_cons_of_next (readObuf_of_output idle cell (olen ▸ lt) holds),
      ih (s := s.logRead (.obuf k (out.getD k 0))) idle held olen cells fun j hj => below j (List.mem_cons_of_mem k hj)]
    simp [State.logRead]

/-- OUT reads OLEN and the whole output and changes nothing else (30_encoding.md R102). -/
theorem hostOut_of_output {s : State} {out : List Byte} (idle : s.cmdr = none) (held : s.obuf = cellsFrom 0 out)
    (olen : s.olen.toNat = out.length) (cells : HasCells s.cfg 0 out.length) :
    hostOut s = .next { s with reads := s.reads ++ outReads s.olen out } := by
  have read_olen : hostAccess (.readReg 3) s = .next (s.logRead (.reg 3 s.olen)) := readReg_of_idle 3 idle
  rw [hostOut, hostAccesses_cons_of_next read_olen, olen,
    hostAccesses_readObuf out _ (s := s.logRead (.reg 3 s.olen)) idle held olen cells fun k => List.mem_range.1]
  simp [State.logRead, outReads]

theorem elementsRead_map_obuf (f : Nat → Byte) (ks : List Nat) :
    elementsRead (ks.map fun k => .obuf k (f k)) = ks.map f := by
  induction ks with
  | nil => rfl
  | cons k ks ih => rw [List.map_cons, elementsRead, ih, List.map_cons]

/-- The elements among what OUT reads are the output. -/
theorem elementsRead_outReads (olen : Len) (out : List Byte) : elementsRead (outReads olen out) = out := by
  rw [outReads, elementsRead, elementsRead_map_obuf]
  refine List.ext_getElem (by simp) fun k _ lt => ?_
  rw [List.getElem_map, List.getElem_range, List.getD_eq_getElem _ _ lt]

/-- MOVE reads the output and makes it the input (30_encoding.md R102). -/
theorem hostMove_of_output {s : State} {out : List Byte} (idle : s.cmdr = none) (held : s.obuf = cellsFrom 0 out)
    (olen : s.olen.toNat = out.length) (cells : HasCells s.cfg 0 out.length) :
    hostMove s = .next (withInput { s with reads := s.reads ++ outReads s.olen out } out) := by
  have lt : out.length < 2 ^ 32 := olen ▸ s.olen.isLt
  rw [hostMove, hostOut_of_output idle held olen cells, andThen, List.drop_left, elementsRead_outReads]
  exact hostAccesses_inputAccesses (s := { s with reads := s.reads ++ outReads s.olen out }) idle lt cells

/-- Settles O55: IN writes cell by cell, OUT reads cell by cell, and MOVE is the one after the other. -/
theorem hostActionsMoveSequences : Obligations.HostActionsMoveSequences := by
  refine ⟨fun s es idle lt fits => ?_, fun s out idle held olen fits => ?_⟩
  · have cells : HasCells s.cfg 0 es.length := fun c bounded => by have := fits c bounded; omega
    exact ⟨_, hostAccesses_inputAccesses idle lt cells, read_writeFrom_zero es s.ibuf⟩
  · have cells : HasCells s.cfg 0 out.length := fun c bounded => by have := fits c bounded; omega
    have lt : out.length < 2 ^ 32 := olen ▸ s.olen.isLt
    have ilen : BitVec.ofNat 32 out.length = s.olen := by rw [← olen, BitVec.ofNat_toNat, BitVec.setWidth_eq]
    refine ⟨hostOut_of_output idle held olen cells, writeFrom 0 out s.ibuf, _, hostMove_of_output idle held olen cells,
      input_withInput lt, ?_, read_writeFrom_zero out s.ibuf⟩
    rw [withInput, ilen]
    rfl

/-! ## A call: IN, CMD, WAIT and OUT (44_control.md R221) -/

/-- A turn of an access for an idle engine. -/
theorem step_of_access {s t : State} {waits : Bool} {a : HostAccess} {rest : List HostTurn} (idle : s.cmdr = none)
    (host : s.host = ⟨waits, .access a⟩ :: rest) (access : hostAccess a { s with host := rest } = .next t) :
    step s = .next t :=
  (step_of_hostTurn (engineTurn_of_idle idle) host).trans access

/-- A turn that writes one cell of IBUF. -/
theorem step_of_ibufWrite {s : State} {i : Nat} {v : Byte} {rest : List HostTurn} (idle : s.cmdr = none)
    (cell : s.cfg.hasCell i = true) (host : s.host = ⟨true, .access (.writeIbuf i v)⟩ :: rest) :
    step s = .next { s with ibuf := s.ibuf.write i v, host := rest } :=
  step_of_access idle host (writeIbuf_of_cell (s := { s with host := rest }) idle cell v)

/-- The turns of IN that write IBUF, one step each. -/
theorem run_ibufWrites (n : Nat) (rest : List HostTurn) (es : List Byte) {start : Nat} {s : State}
    (idle : s.cmdr = none) (cells : HasCells s.cfg start es.length)
    (host : s.host = (ibufWrites start es).map (fun a => ⟨true, .access a⟩) ++ rest) :
    Sys2Proof.core.run (es.length + n) s =
      Sys2Proof.core.run n ({ s with ibuf := writeFrom start es s.ibuf, host := rest } : State) := by
  induction es generalizing start s with
  | nil =>
    have nothing : s = { s with ibuf := writeFrom start [] s.ibuf, host := rest } := by
      rw [writeFrom, ← show s.host = rest from host]
    rw [List.length_nil, Nat.zero_add, ← nothing]
  | cons v es ih =>
    rw [ibufWrites, List.map_cons, List.cons_append] at host
    rw [List.length_cons, Nat.add_right_comm,
      run_succ_of_step _ (step_of_ibufWrite idle cells.head host)]
    exact ih (s := { s with ibuf := s.ibuf.write start v, host := _ }) idle cells.tail rfl

/-- The turns of IN, one step each: the cells and then ILEN. -/
theorem run_turnsIn (n : Nat) {rest : List HostTurn} {x : List Byte} {s : State} (idle : s.cmdr = none)
    (lt : x.length < 2 ^ 32) (cells : HasCells s.cfg 0 x.length) (host : s.host = turnsIn x ++ rest) :
    Sys2Proof.core.run (x.length + (n + 1)) s =
      Sys2Proof.core.run n ({ withInput s x with host := rest } : State) := by
  rw [turnsIn, inputAccesses, List.map_append, List.append_assoc] at host
  have length_written : step { s with
        ibuf := writeFrom 0 x s.ibuf, host := ⟨true, .access (.writeReg 2 (BitVec.ofNat 32 x.length))⟩ :: rest } =
      .next { withInput s x with host := rest } :=
    step_of_access idle rfl
      (writeIlen_of_idle (s := { s with ibuf := writeFrom 0 x s.ibuf, host := rest }) idle (ilen_fits lt cells))
  rw [run_ibufWrites (n + 1) _ x idle cells host]
  exact run_succ_of_step n length_written

/-- An output within the limit is within CAP (93_implementation_defined.md U4). -/
theorem hasCells_of_le_limit {cfg : Config} {n : Nat} (fits : n ≤ cfg.outputLimit) : HasCells cfg 0 n := by
  intro c bounded
  rw [Config.outputLimit, bounded] at fits
  exact (Nat.zero_add n).trans_le (fits.trans (min_le_left c maxLen))

/-- The state after an OUT turn of the output `out`, the turns `rest` still to come. -/
def collected (s : State) (out : List Byte) (rest : List HostTurn) : State :=
  { s with host := rest, reads := s.reads ++ outReads s.olen out }

/-- An OUT turn of an idle engine. -/
theorem step_of_out {s : State} {waits : Bool} {out : List Byte} {rest : List HostTurn} (idle : s.cmdr = none)
    (host : s.host = ⟨waits, .out⟩ :: rest) (held : s.obuf = cellsFrom 0 out) (olen : s.olen.toNat = out.length)
    (cells : HasCells s.cfg 0 out.length) : step s = .next (collected s out rest) :=
  (step_of_hostTurn (engineTurn_of_idle idle) host).trans
    (hostOut_of_output (s := { s with host := rest }) idle held olen cells)

/-- With a command accepted that stores the output `out` and an OUT turn after it, the engine's step and that turn leave
the host with `out` read. -/
theorem run_accepted_then_out {s : State} {i : Instr} {out : List Byte} {rest : List HostTurn}
    (word : s.cmdr = some (encode i)) (wf : i.wf = true) (host : s.host = ⟨true, .out⟩ :: rest)
    (fits : out.length ≤ s.cfg.outputLimit) (stores : exec i s = .next (stored s out)) :
    Sys2Proof.core.run 2 s = .next (collected (stored s out) out rest) := by
  have ran : step s = .next (stored s out) := by
    rw [step_of_engineTurn word (engineTurn_of_waits word (by rw [host]; rintro _ ⟨⟩; rfl)), runWord, decode_encode wf]
    exact stores
  have read : step (stored s out) = .next (collected (stored s out) out rest) :=
    step_of_out rfl host rfl (toNat_stored_olen fits) (hasCells_of_le_limit fits)
  rw [run_succ_of_step 1 ran, run_succ_of_step 0 read]
  rfl

/-- The state with the input `x` and the word of a command accepted, the turns `rest` still to come. -/
def called (s : State) (x : List Byte) (i : Instr) (rest : List HostTurn) : State :=
  accept (encode i) { withInput s x with host := rest }

/-- A call whose command stores the output `out` ends with the host having read `out`: the IN turns, the write to CMD,
the engine's step and the OUT turn. -/
theorem run_call {s : State} {x out : List Byte} {i : Instr} {rest : List HostTurn} (idle : s.cmdr = none)
    (lt : x.length < 2 ^ 32) (cells : HasCells s.cfg 0 x.length) (wf : i.wf = true)
    (host : s.host = turnsIn x ++ turnCmd i :: ⟨true, .out⟩ :: rest) (fits : out.length ≤ s.cfg.outputLimit)
    (stores : exec i (called s x i (⟨true, .out⟩ :: rest)) = .next (stored (called s x i (⟨true, .out⟩ :: rest)) out)) :
    ∃ t, Sys2Proof.core.run (x.length + 4) s = .next t ∧ t.host = rest ∧ t.cmdr = none ∧ t.err = .ok ∧
      t.olen.toNat = out.length ∧
      t.reads = s.reads ++ .reg 3 t.olen :: (List.range t.olen.toNat).map (fun k => .obuf k (out.getD k 0)) := by
  have accepted : step { withInput s x with host := turnCmd i :: ⟨true, .out⟩ :: rest } =
      .next (called s x i (⟨true, .out⟩ :: rest)) :=
    step_of_access idle rfl (writeCmd_of_idle (s := { withInput s x with host := ⟨true, .out⟩ :: rest }) _ idle)
  have olen := toNat_stored_olen (s := called s x i (⟨true, .out⟩ :: rest)) fits
  refine ⟨collected (stored (called s x i (⟨true, .out⟩ :: rest)) out) out rest, ?_, rfl, rfl, rfl, olen, ?_⟩
  · rw [run_turnsIn 3 idle lt cells host, run_succ_of_step 2 accepted]
    exact run_accepted_then_out rfl wf rfl fits stores
  · rw [show (collected (stored (called s x i (⟨true, .out⟩ :: rest)) out) out rest).olen.toNat = out.length from olen]
    rfl

/-- Settles O56: ENC and DEC of a legal base store their closed form of the input that IN has written. -/
theorem hostCallsReturnTheOutput : Obligations.HostCallsReturnTheOutput := by
  intro s x b rest idle lt fits two_le le_94
  have legal := legalBase_iff.2 ⟨two_le, le_94⟩
  have cells : HasCells s.cfg 0 x.length := fun c bounded => by have := fits c bounded; omega
  have input (i : Instr) (turns : List HostTurn) : (called s x i turns).input = x := input_withInput (s := s) lt
  refine ⟨fun out_fits host => ?_, fun symbols out_fits host => ?_⟩
  · refine run_call idle lt cells rfl host out_fits ((exec_enc_eq_next legal).2 ?_)
    rw [input]
    exact ⟨out_fits, rfl⟩
  · refine run_call idle lt cells rfl host out_fits ((exec_dec_eq_next legal ?_).2 ?_)
    · rw [input]
      exact symbols
    · rw [input]
      exact ⟨out_fits, rfl⟩

end Sys2Proof.Proofs
end
